-- ==== Sys2Proof/Word.lean ====
section
/-! DEFINITION. The block's words: fixed widths of spec 00_scope.md R9 and the mask of R12. Bits are numbered from 0,
the least significant, and every value is unsigned (R11). -/

namespace Sys2Proof

/-- A register's or a bus transaction's 32 bits (`BUS_W`, R9, R61). -/
abbrev Word := BitVec 32

/-- A byte offset into the register space (`ADDR_W`, R9, R60). -/
abbrev Offset := BitVec 6

/-- A source Symbol, 0..31 (`SYM_W`, R9, R16). -/
abbrev Symbol := BitVec 5

/-- A polymod accumulator value (`CHK_W`, R9, R33). -/
abbrev Chk := BitVec 30

/-- A converter input value or `FIFO` entry, or a prefix character's code (`V_W`, R9, R92). -/
abbrev Byte := BitVec 8

/-- `mask(n)` of R12. -/
def mask (n : Nat) : Nat := 2 ^ n - 1

end Sys2Proof
end

