-- ==== Sys2Proof/Config.lean ====
section
/-! DEFINITION. The block's fixed parameters (spec 00_scope.md R9). R10: the block leaves no parameter open, so there is
no free value here. The host procedures' one parameter, `SELF_VERIFY`, is an argument of theirs (R10, R232, D40). -/

namespace Sys2Proof.Config

/-- `SEED`, the accumulator's start value: R9, "seeded at 1". -/
def seed : Chk := 1

/-- `GEN[0..4]`, R120. -/
def gen : List Chk := [0x3b6a57b2, 0x26508e6d, 0x1ea119fa, 0x3d4233dd, 0x2a1462b3]

/-- `CK_LEN`, the number of checksum symbols: R9. -/
def ckLen : Nat := 6

/-- The greatest legal converter width; the least is 1 (R9, R35). -/
def maxWidth : Nat := 8

/-- `FIFO_DEPTH`: R9, R41. -/
def fifoDepth : Nat := 8

/-- The default of the host's `SELF_VERIFY` (R232, "the spec's default is true"). -/
def selfVerifyDefault : Bool := true

end Sys2Proof.Config
end

