-- ==== Sys2Proof/Syntax.lean ====
section
/-! DEFINITION. The commands (spec 30_encoding.md R93, one constructor per row of opcode_table.json), the host's bus
transactions (20_memory.md R61, 70_reset_and_hazards.md R290), the registers (10_state.md R45) and the assembler's lines
(30_encoding.md R99, R100). -/

namespace Sys2Proof

/-- The 11 commands of R93, with the operand fields of R91 and R92 at their exact widths. A value a field cannot hold
(a symbol above 31, a negative converter input) has no term here, as it has no encoding (R92, 93 I7 and I8). -/
inductive Instr where
  /-- R200. -/
  | nop
  /-- R123. -/
  | pmInit
  /-- R124. -/
  | pmSym (sym : Symbol)
  /-- R125. -/
  | pmHrphi (c : Byte)
  /-- R126. -/
  | pmHrplo (c : Byte)
  /-- R127. -/
  | pmGen
  /-- R161. The widths are any 4-bit values: only the command itself checks 1..8 (R92, R97). -/
  | bcCfg (fromOp toOp : BitVec 4) (padOp : Bool)
  /-- R162. -/
  | bcPush (v : Byte)
  /-- R163. -/
  | bcFlush
  /-- R201. -/
  | clrerr
  /-- R202. -/
  | reset
deriving DecidableEq, Repr

/-- The registers of R45. -/
inductive Reg where
  | cmd
  | status
  | pmChk
  | pmCksum
  | bcCfg
  | bcAcc
  | bcCnt
  | bcErrinfo
  | bcOut
  | cksym (p : Fin 6)
deriving DecidableEq, Repr

/-- What the outside world can do to the block in one step: the two transactions of R61, and the reset input of R290. -/
inductive Txn where
  /-- `MemRead(off, 4)`. -/
  | memRead (off : Offset)
  /-- `MemWrite(off, 4, v)`. -/
  | memWrite (off : Offset) (v : Word)
  /-- The hardware reset input, as one event (R290, 93 I12). -/
  | resetInput
deriving DecidableEq, Repr

/-- A line of the assembler, with its operands as they are written: numbers of any size (R99), and the
pseudo-instructions (R100). Strings are lists of character codes. -/
inductive AsmLine where
  | nop
  | pmInit
  | pmSym (s : Nat)
  | pmHrphi (c : Nat)
  | pmHrplo (c : Nat)
  | pmGen
  | bcCfg (fromOp toOp padOp : Nat)
  | bcPush (v : Nat)
  | bcFlush
  | clrerr
  | reset
  | wr (off v : Nat)
  | rd (off : Nat)
  | rdName (r : Reg)
  | pmSep
  | pmHrp (h : List Nat)
  | pmData (ss : List Nat)
  | bcB2s
  | bcS2b
  | bcBytes (vs : List Nat)
  | rdCksym
deriving DecidableEq, Repr

end Sys2Proof
end

