-- ==== Sys2Proof/WellFormed.lean ====
section
/-! DEFINITION. Well-formedness. A term of `Instr` holds only what its encoding holds (R92), so every one is well-formed
by its types. Where a number outside its field can be written is an assembler line, and the assembler refuses it: "The
assembler refuses an operand outside the listed range. It never masks such an operand into range" (30_encoding.md R99). -/

namespace Sys2Proof

/-- S in 0..31. -/
def symOk (s : Nat) : Bool := s ≤ 31

/-- C and V in 0..255. -/
def byteOk (c : Nat) : Bool := c ≤ 255

/-- FROM and TO in 0..15: the assembler admits a width the command will reject (R99). -/
def widthOk (w : Nat) : Bool := w ≤ 15

/-- PAD in 0..1. -/
def padOk (p : Nat) : Bool := p ≤ 1

/-- A 6-bit byte offset (R61). -/
def offsetOk (o : Nat) : Bool := o ≤ 63

/-- A 32-bit value (R61). -/
def wordOk (v : Nat) : Bool := v < 2 ^ 32

/-- The ranges of R99, and of the lines a pseudo-instruction expands to (R100). -/
def AsmLine.wf : AsmLine → Bool
  | .nop | .pmInit | .pmGen | .bcFlush | .clrerr | .reset => true
  | .pmSym s => symOk s
  | .pmHrphi c | .pmHrplo c => byteOk c
  | .bcCfg f t p => widthOk f && widthOk t && padOk p
  | .bcPush v => byteOk v
  | .wr off v => offsetOk off && wordOk v
  | .rd off => offsetOk off
  | .rdName _ => true
  | .pmSep | .bcB2s | .bcS2b | .rdCksym => true
  | .pmHrp h => h.all byteOk
  | .pmData ss => ss.all symOk
  | .bcBytes vs => vs.all byteOk

end Sys2Proof
end

