-- ==== Sys2Proof/Decode.lean ====
section
/-! DEFINITION. The command word's decoder in the order of spec 30_encoding.md R97, total on every 32-bit word and
rejecting by cause, and the encoder of R99, written from the same tables. `opcodeTable` is R93's map as rows of match and
mask, a second account of the same encoding. -/

namespace Sys2Proof

/-- Why a word is no command (R94 to R96). -/
inductive IllegalCause where
  /-- Cause 1, R94. -/
  | reservedOpcode
  /-- Cause 2, R95. -/
  | reservedOperandBits
  /-- Cause 3, R96. -/
  | upperBits
deriving DecidableEq, Repr

/-- The `CMD_CAUSE` number of a cause (R42). -/
def causeCode : IllegalCause → BitVec 3
  | .reservedOpcode => 1
  | .reservedOperandBits => 2
  | .upperBits => 3

/-- What a word decodes to. -/
inductive Decoded where
  | command (i : Instr)
  | illegal (c : IllegalCause)
deriving DecidableEq, Repr

/-- The operand formats of R91. -/
inductive Format where
  | N
  | S
  | B
  | C
deriving DecidableEq, Repr

/-- `RESV`, the reserved operand bits of a format (R97). -/
def reservedBits : Format → BitVec 12
  | .N => 0xFFF
  | .S => 0xFE0
  | .B => 0xF00
  | .C => 0xE00

/-- The format of an opcode, or none for the reserved opcodes 0x6, 0x7, 0xB, 0xC and 0xD (R93, R94). -/
def formatOf (op : BitVec 4) : Option Format :=
  match op.toNat with
  | 0x0 => some .N
  | 0x1 => some .N
  | 0x2 => some .S
  | 0x3 => some .B
  | 0x4 => some .B
  | 0x5 => some .N
  | 0x8 => some .C
  | 0x9 => some .B
  | 0xA => some .N
  | 0xE => some .N
  | 0xF => some .N
  | _ => none

/-- The command of a defined opcode with its operand bits (R91, R93); none for a reserved opcode. -/
def commandOf (op : BitVec 4) (w : BitVec 12) : Option Instr :=
  match op.toNat with
  | 0x0 => some .nop
  | 0x1 => some .pmInit
  | 0x2 => some (.pmSym (w.extractLsb' 0 5))
  | 0x3 => some (.pmHrphi (w.extractLsb' 0 8))
  | 0x4 => some (.pmHrplo (w.extractLsb' 0 8))
  | 0x5 => some .pmGen
  | 0x8 => some (.bcCfg (w.extractLsb' 0 4) (w.extractLsb' 4 4) (w.getLsbD 8))
  | 0x9 => some (.bcPush (w.extractLsb' 0 8))
  | 0xA => some .bcFlush
  | 0xE => some .clrerr
  | 0xF => some .reset
  | _ => none

/-- `decode(W)` of R97: the upper half, then the opcode, then the reserved operand bits. -/
def decode (w : Word) : Decoded :=
  if w.extractLsb' 16 16 ≠ 0 then .illegal .upperBits
  else
    match formatOf (w.extractLsb' 12 4), commandOf (w.extractLsb' 12 4) (w.extractLsb' 0 12) with
    | some f, some i => if w.extractLsb' 0 12 &&& reservedBits f ≠ 0 then .illegal .reservedOperandBits else .command i
    | _, _ => .illegal .reservedOpcode

/-- The word of a command (R99, the column "encodes"). -/
def encode : Instr → Word
  | .nop => 0x00000000
  | .pmInit => 0x00001000
  | .pmSym s => 0x00002000 ||| s.setWidth 32
  | .pmHrphi c => 0x00003000 ||| c.setWidth 32
  | .pmHrplo c => 0x00004000 ||| c.setWidth 32
  | .pmGen => 0x00005000
  | .bcCfg f t p => 0x00008000 ||| (BitVec.ofBool p).setWidth 32 <<< 8 ||| t.setWidth 32 <<< 4 ||| f.setWidth 32
  | .bcPush v => 0x00009000 ||| v.setWidth 32
  | .bcFlush => 0x0000A000
  | .clrerr => 0x0000E000
  | .reset => 0x0000F000

/-- A row of R93's opcode map. -/
structure OpcodeRow where
  mnemonic : String
  matchBits : Word
  maskBits : Word
deriving DecidableEq, Repr

/-- R93's opcode map, the rows that are not reserved. -/
def opcodeTable : List OpcodeRow :=
  [⟨"NOP", 0x00000000, 0xFFFFFFFF⟩, ⟨"PM_INIT", 0x00001000, 0xFFFFFFFF⟩, ⟨"PM_SYM", 0x00002000, 0xFFFFFFE0⟩,
   ⟨"PM_HRPHI", 0x00003000, 0xFFFFFF00⟩, ⟨"PM_HRPLO", 0x00004000, 0xFFFFFF00⟩, ⟨"PM_GEN", 0x00005000, 0xFFFFFFFF⟩,
   ⟨"BC_CFG", 0x00008000, 0xFFFFFE00⟩, ⟨"BC_PUSH", 0x00009000, 0xFFFFFF00⟩, ⟨"BC_FLUSH", 0x0000A000, 0xFFFFFFFF⟩,
   ⟨"CLRERR", 0x0000E000, 0xFFFFFFFF⟩, ⟨"RESET", 0x0000F000, 0xFFFFFFFF⟩]

/-- `(W & mask) == match` (R93). -/
def OpcodeRow.selects (r : OpcodeRow) (w : Word) : Bool := w &&& r.maskBits == r.matchBits

/-- The row's name of a command (R93, letter for letter as opcode_table.json has it). -/
def mnemonicOf : Instr → String
  | .nop => "NOP"
  | .pmInit => "PM_INIT"
  | .pmSym _ => "PM_SYM"
  | .pmHrphi _ => "PM_HRPHI"
  | .pmHrplo _ => "PM_HRPLO"
  | .pmGen => "PM_GEN"
  | .bcCfg _ _ _ => "BC_CFG"
  | .bcPush _ => "BC_PUSH"
  | .bcFlush => "BC_FLUSH"
  | .clrerr => "CLRERR"
  | .reset => "RESET"

/-- What this decoder reads from an instruction of `nbits` bits whose bits are `w`. A command is one 32-bit bus write
(R90) and the bus has no byte lanes (R69), so the word's bits are the table's bits (log entry 15). -/
def decodeTableWord (nbits w : Nat) : Option Instr :=
  match decode (BitVec.ofNat 32 (w % 2 ^ nbits)) with
  | .command i => some i
  | .illegal _ => none

end Sys2Proof
end

