-- ==== Sys2Proof/Machine/State.lean ====
section
/-! DEFINITION. The block's state in the three partitions of spec 10_state.md R30, the host's side of the bus beside it,
the state after reset (R57), and the ways a step could stop. -/

namespace Sys2Proof.Machine

/-- The PM unit (R30): `CHK` (R33) and `CKSUM` (R34). -/
structure PmUnit where
  chk : Chk
  cksum : Chk
deriving DecidableEq, Repr

/-- The BC unit (R30): the configuration `FROM`, `TO`, `PAD` (R35), the residue `ACC` (R37) of `BITS` bits (R36), the
input counter `CNT` (R38), the error code `BC_ERR` (R39) with its context `ERR_IDX` and `ERR_VAL` (R40), and the output
queue `FIFO`, oldest entry first (R41). -/
structure BcUnit where
  fromBits : BitVec 4
  toBits : BitVec 4
  pad : Bool
  acc : BitVec 7
  bits : BitVec 3
  cnt : BitVec 16
  bcErr : BitVec 3
  errIdx : BitVec 16
  errVal : BitVec 8
  fifo : List Byte
deriving DecidableEq, Repr

/-- The control partition (R30): `CMD_ERR` and `CMD_CAUSE` (R42), `OVF` (R43), `ACC_ERR` (R44). -/
structure Control where
  cmdErr : Bool
  cmdCause : BitVec 3
  ovf : Bool
  accErr : Bool
deriving DecidableEq, Repr

/-- The block, and the host's side of its bus. `pending` and `reads` are the model's own fields (log entries 1 and 2):
the transactions the host has issued and the block has not performed, in issue order (R71), and the values the host's
reads returned, oldest first (R305). -/
structure State where
  pm : PmUnit
  bc : BcUnit
  ctl : Control
  pending : List Txn
  reads : List Word
deriving DecidableEq, Repr

/-- Nothing raises a fault: "The block has no exceptions, traps, trap vectors, saved trap state or trap return", and "It
never stops accepting transactions" (60_exceptions.md R260). An error is recorded in the state, and the step answers a
next state. -/
inductive Fault where
deriving DecidableEq, Repr

/-- Why a step could answer without a meaning. -/
inductive Refusal where
  /-- Raised by no arm of `exec`: every command has its meaning. Safe: nothing can be proved of a refused command. -/
  | notModelled (mnemonic : String)
deriving DecidableEq, Repr

/-- The PM unit after reset (R57). -/
def PmUnit.reset : PmUnit where
  chk := 1
  cksum := 0

/-- The BC unit after reset (R57). -/
def BcUnit.reset : BcUnit where
  fromBits := 8
  toBits := 5
  pad := true
  acc := 0
  bits := 0
  cnt := 0
  bcErr := 0
  errIdx := 0
  errVal := 0
  fifo := []

/-- The control partition after reset (R57). -/
def Control.reset : Control where
  cmdErr := false
  cmdCause := 0
  ovf := false
  accErr := false

/-- The machine right after reset (R57, R290). The two fields of the host's side are empty: the host has issued and read
nothing (DESIGN CHOICE, log entries 1 and 2). -/
def State.reset : State where
  pm := .reset
  bc := .reset
  ctl := .reset
  pending := []
  reads := []

end Sys2Proof.Machine
end

