-- ==== Sys2Proof/Machine/Operands.lean ====
section
/-! DEFINITION. The operand forms: what a command computes from its operand fields before it acts (spec 30_encoding.md
R92), and what an offset selects in the register space (10_state.md R45). -/

namespace Sys2Proof.Machine

/-- `zext_5(C >> 5)`, the symbol `PM_HRPHI C` feeds (40_checksum.md R125). -/
def hrpHigh (c : Byte) : Symbol := (c >>> 5).setWidth 5

/-- `C & 31`, the symbol `PM_HRPLO C` feeds (40_checksum.md R126). -/
def hrpLow (c : Byte) : Symbol := (c &&& 31).setWidth 5

/-- A converter width the block accepts: 1..8 (R35, 41_convert.md R161). -/
def widthLegal (w : BitVec 4) : Bool := 1 ≤ w.toNat && w.toNat ≤ Config.maxWidth

/-- `W[7:0]` of a `BC_CFG` word, `TO << 4 | FROM` (60_exceptions.md R267). -/
def cfgByte (fromOp toOp : BitVec 4) : Byte := toOp ++ fromOp

/-- `off[1:0] != 0` (20_memory.md R62). -/
def misaligned (off : Offset) : Bool := off.extractLsb' 0 2 != 0

/-- The register in an aligned slot; none in the unmapped slot 0x3C and at a misaligned offset (R45, R60). -/
def regAt (off : Offset) : Option Reg :=
  match off.toNat with
  | 0x00 => some .cmd
  | 0x04 => some .status
  | 0x08 => some .pmChk
  | 0x0C => some .pmCksum
  | 0x10 => some .bcCfg
  | 0x14 => some .bcAcc
  | 0x18 => some .bcCnt
  | 0x1C => some .bcErrinfo
  | 0x20 => some .bcOut
  | 0x24 => some (.cksym 0)
  | 0x28 => some (.cksym 1)
  | 0x2C => some (.cksym 2)
  | 0x30 => some (.cksym 3)
  | 0x34 => some (.cksym 4)
  | 0x38 => some (.cksym 5)
  | _ => none

/-- A register's offset (R45; `CKSYMp` at 0x24 + 4p, R54). -/
def regOffset : Reg → Offset
  | .cmd => 0x00
  | .status => 0x04
  | .pmChk => 0x08
  | .pmCksum => 0x0C
  | .bcCfg => 0x10
  | .bcAcc => 0x14
  | .bcCnt => 0x18
  | .bcErrinfo => 0x1C
  | .bcOut => 0x20
  | .cksym p => BitVec.ofNat 6 (0x24 + 4 * p.val)

end Sys2Proof.Machine
end

