-- ==== Sys2Proof/Machine/Ops.lean ====
section
/-! DEFINITION. The shared operations over the state: the partition updates, the polymod step (spec 40_checksum.md R121),
the converter's emission loop (41_convert.md R162), the four error recording primitives (60_exceptions.md R263 to R266),
the clearing of the sticky flags (R271) and the reset (70_reset_and_hazards.md R290). The block has no traps (R260):
recording an error is what it has in an exception's place, and clearing is what it has in a return's. -/

namespace Sys2Proof.Machine

/-- Replace the PM unit. -/
def setPm (p : PmUnit) (s : State) : State := { s with pm := p }

/-- Replace the BC unit. -/
def setBc (b : BcUnit) (s : State) : State := { s with bc := b }

/-- Replace the control partition. -/
def setCtl (c : Control) (s : State) : State := { s with ctl := c }

/-- Record the value a read returned, on the host's side (R305). -/
def logRead (v : Word) (s : State) : State := { s with reads := s.reads ++ [v] }

/-- `top[i]` selects `GEN[i]` (R121, 90_conflicts.md C3). -/
def foldGen (top : BitVec 5) (r : Chk) (i : Nat) : Chk :=
  if top.getLsbD i then r ^^^ Config.gen.getD i 0 else r

/-- `pmstep(chk, s)` of R121. -/
def pmstep (chk : Chk) (sym : Symbol) : Chk :=
  let top := chk.extractLsb' 25 5
  let r := (chk &&& 0x1FFFFFF) <<< 5 ||| sym.setWidth 30
  [0, 1, 2, 3, 4].foldl (foldGen top) r

/-- `n` polymod steps with the symbol 0 (R127). -/
def zeroSteps : Nat → Chk → Chk
  | 0, c => c
  | n + 1, c => zeroSteps n (pmstep c 0)

/-- `CHK <- pmstep(CHK, sym)`: the effect of a feeding command (R124 to R126). -/
def feedSymbol (sym : Symbol) (s : State) : State :=
  setPm { s.pm with chk := pmstep s.pm.chk sym } s

/-- The loop of R162: `n` times take `TO` bits off the count and emit the group above it, most significant first. The
answer is the groups in emission order and the bits left. -/
def emitGroups (a t : Nat) : Nat → Nat → List Byte × Nat
  | 0, b => ([], b)
  | n + 1, b =>
    let r := emitGroups a t n (b - t)
    (BitVec.ofNat 8 (a >>> (b - t) &&& mask t) :: r.1, r.2)

/-- The converter with an empty residue and the counter at 0: the end of a successful flush (R163). -/
def startConversion (b : BcUnit) : BcUnit := { b with acc := 0, bits := 0, cnt := 0 }

/-- `cmd_illegal(cause)` (R263): the first cause is kept. -/
def cmdIllegal (c : IllegalCause) (s : State) : State :=
  setCtl { s.ctl with cmdErr := true, cmdCause := if s.ctl.cmdErr then s.ctl.cmdCause else causeCode c } s

/-- `acc_error()` (R264). -/
def accError (s : State) : State := setCtl { s.ctl with accErr := true } s

/-- `overflow()` (R265). -/
def overflow (s : State) : State := setCtl { s.ctl with ovf := true } s

/-- `bc_error(code, idx, val)` (R266): the context modulo 2^16 and 2^8, and no partial result stays readable. -/
def bcError (code : BitVec 3) (idx val : Nat) (s : State) : State :=
  setBc { s.bc with bcErr := code, errIdx := BitVec.ofNat 16 idx, errVal := BitVec.ofNat 8 val, fifo := [] } s

/-- The error codes of R39. -/
def errDataOutOfRange : BitVec 3 := 1
/-- R39. -/
def errIllegalPadding : BitVec 3 := 2
/-- R39. -/
def errNonZeroPadding : BitVec 3 := 3
/-- R39. -/
def errBadConfig : BitVec 3 := 4

/-- `CMD_ERR`, `CMD_CAUSE`, `OVF` and `ACC_ERR` cleared (R201, R271). -/
def clearSticky (s : State) : State :=
  setCtl { cmdErr := false, cmdCause := 0, ovf := false, accErr := false } s

/-- The reset of R290: every element of the block takes its reset value at once. It has no effect outside the block
(R202), so the host's side keeps its place. -/
def resetBlock (s : State) : State :=
  { s with pm := State.reset.pm, bc := State.reset.bc, ctl := State.reset.ctl }

/-- Take the oldest `FIFO` entry off (R164). -/
def popFifo (s : State) : State := setBc { s.bc with fifo := s.bc.fifo.tail } s

end Sys2Proof.Machine
end

