-- ==== Sys2Proof/Machine/Flags.lean ====
section
/-! DEFINITION. What the host reads: `STATUS` and its flags, and every other register view (spec 10_state.md R45 to R56).
A view is computed at the read and not stored. -/

namespace Sys2Proof.Machine

/-- `STATUS.PM_ONE`: 1 iff `CHK == 1` (R46, D10). -/
def pmOne (s : State) : Bool := s.pm.chk == 1

/-- `STATUS.FIFO_COUNT`: `len(FIFO)` (R46). -/
def fifoCount (s : State) : BitVec 4 := BitVec.ofNat 4 s.bc.fifo.length

/-- `STATUS`, from bit 31 down (R46): reserved, `BC_BITS`, `FIFO_COUNT`, reserved, `BC_ERR`, reserved, `CMD_CAUSE`,
`ACC_ERR`, `OVF`, `CMD_ERR`, `PM_ONE`. -/
def statusWord (s : State) : Word :=
  0#13 ++ s.bc.bits ++ fifoCount s ++ 0#1 ++ s.bc.bcErr ++ 0#1 ++ s.ctl.cmdCause ++ BitVec.ofBool s.ctl.accErr ++
    BitVec.ofBool s.ctl.ovf ++ BitVec.ofBool s.ctl.cmdErr ++ BitVec.ofBool (pmOne s)

/-- `BC_CFG` as it reads: `PAD`, `TO`, `FROM` (R49). -/
def cfgWord (s : State) : Word := 0#23 ++ BitVec.ofBool s.bc.pad ++ s.bc.toBits ++ s.bc.fromBits

/-- `BC_ERRINFO`: `ERR_VAL`, `ERR_IDX` (R52). -/
def errinfoWord (s : State) : Word := 0#8 ++ s.bc.errVal ++ s.bc.errIdx

/-- `BC_OUT` as it reads: `VALID` and the oldest entry, or 0 (R53, R164). -/
def outWord (s : State) : Word :=
  match s.bc.fifo with
  | [] => 0
  | e :: _ => 0x100 ||| e.setWidth 32

/-- `CKSYMp`: `(CKSUM >> (5*(5-p))) & 31` (R54, R128). -/
def cksymWord (p : Fin 6) (s : State) : Word := (s.pm.cksum >>> (5 * (5 - p.val)) &&& 31).setWidth 32

/-- The value a read of a register returns (R45 to R55). -/
def regValue (r : Reg) (s : State) : Word :=
  match r with
  | .cmd => 0
  | .status => statusWord s
  | .pmChk => s.pm.chk.setWidth 32
  | .pmCksum => s.pm.cksum.setWidth 32
  | .bcCfg => cfgWord s
  | .bcAcc => s.bc.acc.setWidth 32
  | .bcCnt => s.bc.cnt.setWidth 32
  | .bcErrinfo => errinfoWord s
  | .bcOut => outWord s
  | .cksym p => cksymWord p s

end Sys2Proof.Machine
end

