-- ==== Sys2Proof/Machine/Checksum.lean ====
section
/-! DEFINITION. The PM unit's commands (spec 40_checksum.md R123 to R127). They have no errors of their own and touch
nothing but the PM unit (R133, R30). -/

namespace Sys2Proof.Machine

/-- `PM_INIT`, R123: `CHK <- 1`. -/
def execPmInit (s : State) : Host.Outcome State Fault Refusal :=
  .next (setPm { s.pm with chk := Config.seed } s)

/-- `PM_SYM S`, R124: `CHK <- pmstep(CHK, S)`. -/
def execPmSym (sym : Symbol) (s : State) : Host.Outcome State Fault Refusal :=
  .next (feedSymbol sym s)

/-- `PM_HRPHI C`, R125: `CHK <- pmstep(CHK, zext_5(C >> 5))`. -/
def execPmHrphi (c : Byte) (s : State) : Host.Outcome State Fault Refusal :=
  .next (feedSymbol (hrpHigh c) s)

/-- `PM_HRPLO C`, R126: `CHK <- pmstep(CHK, C & 31)`. -/
def execPmHrplo (c : Byte) (s : State) : Host.Outcome State Fault Refusal :=
  .next (feedSymbol (hrpLow c) s)

/-- The PM unit after `PM_GEN`, R127: six zero steps stay in `CHK`, and `CKSUM <- CHK ^ 1`. -/
def genUnit (p : PmUnit) : PmUnit :=
  let c := zeroSteps Config.ckLen p.chk
  { chk := c, cksum := c ^^^ 1 }

/-- `PM_GEN`, R127. -/
def execPmGen (s : State) : Host.Outcome State Fault Refusal :=
  .next (setPm (genUnit s.pm) s)

end Sys2Proof.Machine
end

