-- ==== Sys2Proof/Machine/Control.lean ====
section
/-! DEFINITION. The control commands (spec 42_control.md R200 to R202). -/

namespace Sys2Proof.Machine

/-- `NOP`, R200: no state changes. -/
def execNop (s : State) : Host.Outcome State Fault Refusal := .next s

/-- `CLRERR`, R201. `BC_ERR` and its context are not cleared. -/
def execClrerr (s : State) : Host.Outcome State Fault Refusal := .next (clearSticky s)

/-- `RESET`, R202: the reset of R290. -/
def execReset (s : State) : Host.Outcome State Fault Refusal := .next (resetBlock s)

end Sys2Proof.Machine
end

