-- ==== Sys2Proof/Machine/Convert.lean ====
section
/-! DEFINITION. The BC unit's commands (spec 41_convert.md R161 to R163), with the family checks in the order of
60_exceptions.md R270. Sums and shifts are computed exactly on natural numbers and narrowed at the end; in a state that
keeps R165's invariants the narrowing drops nothing (log entry 6). -/

namespace Sys2Proof.Machine

/-- The unit a legal `BC_CFG` leaves: a fresh conversion, no error and an empty `FIFO` (R161). -/
def configured (fromOp toOp : BitVec 4) (padOp : Bool) : BcUnit where
  fromBits := fromOp
  toBits := toOp
  pad := padOp
  acc := 0
  bits := 0
  cnt := 0
  bcErr := 0
  errIdx := 0
  errVal := 0
  fifo := []

/-- `BC_CFG FROM, TO, PAD`, R161: BadConfig is checked in either phase (R270) and keeps the configuration. -/
def execBcCfg (fromOp toOp : BitVec 4) (padOp : Bool) (s : State) : Host.Outcome State Fault Refusal :=
  if widthLegal fromOp && widthLegal toOp then .next (setBc (configured fromOp toOp padOp) s)
  else .next (bcError errBadConfig 0 (cfgByte fromOp toOp).toNat s)

/-- `(V >> FROM) != 0`: the value has a bit at or above `FROM` (R162). -/
def outOfRange (v : Byte) (b : BcUnit) : Bool := v.toNat >>> b.fromBits.toNat != 0

/-- `n <- (BITS + FROM) div TO`, the groups the next value completes (R162). -/
def pushGroups (b : BcUnit) : Nat := (b.bits.toNat + b.fromBits.toNat) / b.toBits.toNat

/-- `n > 8 - len(FIFO)`: the groups do not fit (R162). -/
def pushNoSpace (b : BcUnit) : Bool := pushGroups b > Config.fifoDepth - b.fifo.length

/-- The unit an accepted `BC_PUSH V` leaves (R162): the groups appended, the residue kept, the counter advanced. -/
def appended (v : Byte) (b : BcUnit) : BcUnit :=
  let a := b.acc.toNat <<< b.fromBits.toNat ||| v.toNat
  let e := emitGroups a b.toBits.toNat (pushGroups b) (b.bits.toNat + b.fromBits.toNat)
  { b with
    fifo := b.fifo ++ e.1
    acc := BitVec.ofNat 7 (a &&& mask e.2)
    bits := BitVec.ofNat 3 e.2
    cnt := b.cnt + 1 }

/-- `BC_PUSH V`, R162: phase, then range, then space (R270). -/
def execBcPush (v : Byte) (s : State) : Host.Outcome State Fault Refusal :=
  if s.bc.bcErr ≠ 0 then .next s
  else if outOfRange v s.bc then .next (bcError errDataOutOfRange s.bc.cnt.toNat v.toNat s)
  else if pushNoSpace s.bc then .next (overflow s)
  else .next (setBc (appended v s.bc) s)

/-- `(ACC << (TO - BITS)) & mask(TO)`, the last group of a padded flush (R163). -/
def paddedGroup (b : BcUnit) : Byte :=
  BitVec.ofNat 8 (b.acc.toNat <<< (b.toBits.toNat - b.bits.toNat) &&& mask b.toBits.toNat)

/-- The padded completion of R163. -/
def flushPadded (s : State) : State :=
  if s.bc.bits.toNat > 0 then
    if s.bc.fifo.length = Config.fifoDepth then overflow s
    else setBc (startConversion { s.bc with fifo := s.bc.fifo ++ [paddedGroup s.bc] }) s
  else setBc (startConversion s.bc) s

/-- The strict completion of R163: IllegalPadding before NonZeroPadding (R270). -/
def flushStrict (s : State) : State :=
  if s.bc.bits.toNat ≥ s.bc.fromBits.toNat then bcError errIllegalPadding s.bc.cnt.toNat s.bc.acc.toNat s
  else if s.bc.acc ≠ 0 then bcError errNonZeroPadding s.bc.cnt.toNat s.bc.acc.toNat s
  else setBc (startConversion s.bc) s

/-- `BC_FLUSH`, R163. -/
def execBcFlush (s : State) : Host.Outcome State Fault Refusal :=
  if s.bc.bcErr ≠ 0 then .next s
  else if s.bc.pad then .next (flushPadded s)
  else .next (flushStrict s)

end Sys2Proof.Machine
end

