-- ==== Sys2Proof/Machine/Dispatch.lean ====
section
/-! DEFINITION. One arm per command (spec 30_encoding.md R93). -/

namespace Sys2Proof.Machine

/-- Perform a decoded command (R97, `perform`). -/
def exec (i : Instr) (s : State) : Host.Outcome State Fault Refusal :=
  match i with
  | .nop => Sys2Proof.Machine.execNop s
  | .pmInit => Sys2Proof.Machine.execPmInit s
  | .pmSym sym => Sys2Proof.Machine.execPmSym sym s
  | .pmHrphi c => Sys2Proof.Machine.execPmHrphi c s
  | .pmHrplo c => Sys2Proof.Machine.execPmHrplo c s
  | .pmGen => Sys2Proof.Machine.execPmGen s
  | .bcCfg fromOp toOp padOp => Sys2Proof.Machine.execBcCfg fromOp toOp padOp s
  | .bcPush v => Sys2Proof.Machine.execBcPush v s
  | .bcFlush => Sys2Proof.Machine.execBcFlush s
  | .clrerr => Sys2Proof.Machine.execClrerr s
  | .reset => Sys2Proof.Machine.execReset s

end Sys2Proof.Machine
end

