-- ==== Sys2Proof/Machine/Bus.lean ====
section
/-! DEFINITION. The register space (spec 20_memory.md): what one host transaction does, with the access checks before the
decode checks before the command's own (60_exceptions.md R269). -/

namespace Sys2Proof.Machine

/-- A read of a mapped register: its value, and the block after it. Only a read of `BC_OUT` changes the block: it takes
the oldest entry off, and with an empty `FIFO` it changes nothing (R66, R164). -/
def readReg (r : Reg) (s : State) : Word × State :=
  (regValue r s, if r = .bcOut then popFifo s else s)

/-- `MemRead(off, 4)`: a misaligned (R62) or unmapped (R63) offset records the access error and reads 0. The value is
recorded on the host's side (R305). -/
def busRead (off : Offset) (s : State) : Word × State :=
  let r :=
    if misaligned off then (0, accError s)
    else
      match regAt off with
      | none => (0, accError s)
      | some reg => readReg reg s
  (r.1, logRead r.1 r.2)

/-- A word written to `CMD` (R90, R97): performed, or recorded as illegal with its cause and nothing else (R94 to R96). -/
def writeCmd (w : Word) (s : State) : Host.Outcome State Fault Refusal :=
  match decode w with
  | .command i => exec i s
  | .illegal c => .next (cmdIllegal c s)

/-- `MemWrite(off, 4, v)`: a misaligned (R62) or unmapped (R63) offset or a read-only register (R64) records the access
error and discards the write; only a write to `CMD` has an effect (R67). -/
def busWrite (off : Offset) (v : Word) (s : State) : Host.Outcome State Fault Refusal :=
  if misaligned off then .next (accError s)
  else
    match regAt off with
    | none => .next (accError s)
    | some .cmd => writeCmd v s
    | some _ => .next (accError s)

/-- One host transaction, whole (R68), or the reset input (R290). -/
def perform (t : Txn) (s : State) : Host.Outcome State Fault Refusal :=
  match t with
  | .memRead off => .next (busRead off s).2
  | .memWrite off v => busWrite off v s
  | .resetInput => .next (resetBlock s)

/-- Transactions in issue order, each complete before the next (R71). -/
def performAll : List Txn → State → Host.Outcome State Fault Refusal
  | [], s => .next s
  | t :: ts, s =>
    match perform t s with
    | .next s' => performAll ts s'
    | .fault r => .fault r
    | .refused r => .refused r

/-- The write transaction of a command (R99: "Every command mnemonic is the host transaction `wr 0x00, <encoding>`"). -/
def cmdTxn (i : Instr) : Txn := .memWrite (regOffset .cmd) (encode i)

end Sys2Proof.Machine
end

