-- ==== Sys2Proof/Machine/Step.lean ====
section
/-! DEFINITION. One step: the block performs the next transaction the host has issued (spec 00_scope.md R8, 20_memory.md
R68, R71). -/

namespace Sys2Proof.Machine

/-- One step. With no transaction pending the block waits: it never halts (R304), and nothing in it changes (log
entry 3). -/
def step (s : State) : Host.Outcome State Fault Refusal :=
  match s.pending with
  | [] => .next s
  | t :: ts => perform t { s with pending := ts }

/-- `s` with the instruction's word as the host's next transaction, a write to `CMD` (R90). A command takes effect when its
`CMD` write is performed (R72): there is no fetch, and the front of `pending` is where the next command comes from (log
entry 7). -/
def State.withFetchWord (s : State) (nbits w : Nat) : State :=
  { s with pending := .memWrite (regOffset .cmd) (BitVec.ofNat 32 (w % 2 ^ nbits)) :: s.pending }

end Sys2Proof.Machine
end

