-- ==== Sys2Proof/Machine/Assembler.lean ====
section
/-! DEFINITION. The assembler (spec 30_encoding.md R99, R100): a line's text, its range check (WellFormed.lean) and the
host transactions it stands for. -/

namespace Sys2Proof.Machine

/-- The commands of `pm.hrp "h"`, which is the hrp-expand feed (R100, 40_checksum.md R130). -/
def pmHrp (h : List Byte) : List Instr := h.map .pmHrphi ++ [.pmSym 0] ++ h.map .pmHrplo

/-- The commands of `pm.data s0, s1, ...` (R100). -/
def pmData (ss : List Symbol) : List Instr := ss.map .pmSym

/-- `bc.b2s` (R100). -/
def bcB2s : Instr := .bcCfg 8 5 true

/-- `bc.s2b` (R100). -/
def bcS2b : Instr := .bcCfg 5 8 false

/-- The registers `rd.cksym` reads, in order (R100). -/
def cksymRegs : List Reg := [.cksym 0, .cksym 1, .cksym 2, .cksym 3, .cksym 4, .cksym 5]

/-- A read of a register by name (R99, `rd NAME`). -/
def readTxn (r : Reg) : Txn := .memRead (regOffset r)

/-- The transactions a line stands for (R99, R100), its operands taken as in range. -/
def expandLine : AsmLine → List Txn
  | .nop => [cmdTxn .nop]
  | .pmInit => [cmdTxn .pmInit]
  | .pmSym s => [cmdTxn (.pmSym (BitVec.ofNat 5 s))]
  | .pmHrphi c => [cmdTxn (.pmHrphi (BitVec.ofNat 8 c))]
  | .pmHrplo c => [cmdTxn (.pmHrplo (BitVec.ofNat 8 c))]
  | .pmGen => [cmdTxn .pmGen]
  | .bcCfg f t p => [cmdTxn (.bcCfg (BitVec.ofNat 4 f) (BitVec.ofNat 4 t) (p == 1))]
  | .bcPush v => [cmdTxn (.bcPush (BitVec.ofNat 8 v))]
  | .bcFlush => [cmdTxn .bcFlush]
  | .clrerr => [cmdTxn .clrerr]
  | .reset => [cmdTxn .reset]
  | .wr off v => [.memWrite (BitVec.ofNat 6 off) (BitVec.ofNat 32 v)]
  | .rd off => [.memRead (BitVec.ofNat 6 off)]
  | .rdName r => [readTxn r]
  | .pmSep => [cmdTxn (.pmSym 0)]
  | .pmHrp h => (pmHrp (h.map (BitVec.ofNat 8))).map cmdTxn
  | .pmData ss => (pmData (ss.map (BitVec.ofNat 5))).map cmdTxn
  | .bcB2s => [cmdTxn bcB2s]
  | .bcS2b => [cmdTxn bcS2b]
  | .bcBytes vs => vs.map fun v => cmdTxn (.bcPush (BitVec.ofNat 8 v))
  | .rdCksym => cksymRegs.map readTxn

/-- Assemble a line, or refuse it (R99): no operand is masked into range. -/
def assemble (l : AsmLine) : Option (List Txn) := if l.wf then some (expandLine l) else none

/-- A decimal or hexadecimal digit below the base. -/
def digitValue (base : Nat) (c : Char) : Option Nat :=
  let n := c.toNat
  let d := if 48 ≤ n ∧ n ≤ 57 then n - 48 else if 97 ≤ n ∧ n ≤ 102 then n - 87 else if 65 ≤ n ∧ n ≤ 70 then n - 55 else base
  if d < base then some d else none

/-- The value of a run of digits, after `acc`. -/
def readDigits (base : Nat) : Nat → List Char → Option Nat
  | acc, [] => some acc
  | acc, c :: cs =>
    match digitValue base c with
    | some d => readDigits base (acc * base + d) cs
    | none => none

/-- An operand: decimal, `0x` hexadecimal, or a character in single quotes, meaning its ASCII code (R99). R99 does not list
which operands are character operands; here every number may be written so (DESIGN CHOICE, log entry 12). -/
def readOperand : List Char → Option Nat
  | [] => none
  | ['\'', c, '\''] => if c.toNat < 128 then some c.toNat else none
  | '0' :: 'x' :: d :: ds => readDigits 16 0 (d :: ds)
  | d :: ds => readDigits 10 0 (d :: ds)

/-- Drop leading blanks. -/
def skipBlanks : List Char → List Char
  | ' ' :: cs => skipBlanks cs
  | cs => cs

/-- Drop blanks at both ends. -/
def trimBlanks (cs : List Char) : List Char := (skipBlanks (skipBlanks cs).reverse).reverse

/-- The mnemonic, up to the first blank, and the rest. -/
def splitMnemonic : List Char → List Char × List Char
  | [] => ([], [])
  | ' ' :: cs => ([], cs)
  | c :: cs => let r := splitMnemonic cs; (c :: r.1, r.2)

/-- The texts between commas; a comma in single quotes is a character operand. -/
def splitCommas : List Char → List (List Char)
  | [] => [[]]
  | '\'' :: c :: '\'' :: cs =>
    match splitCommas cs with
    | [] => [['\'', c, '\'']]
    | w :: ws => ('\'' :: c :: '\'' :: w) :: ws
  | ',' :: cs => [] :: splitCommas cs
  | c :: cs =>
    match splitCommas cs with
    | [] => [[c]]
    | w :: ws => (c :: w) :: ws

/-- The operands of a line; no text is no operand. -/
def readOperands (cs : List Char) : Option (List Nat) :=
  if trimBlanks cs = [] then some [] else (splitCommas cs).mapM fun w => readOperand (trimBlanks w)

/-- The characters of a string in double quotes, which holds no double quote. -/
def readString (cs : List Char) : Option (List Nat) :=
  match trimBlanks cs with
  | '"' :: body =>
    match body.reverse with
    | '"' :: h => if h.all (fun c => c.toNat < 128 && c != '"') then some (h.reverse.map Char.toNat) else none
    | _ => none
  | _ => none

/-- A register's name (R45, R99). -/
def readRegName : List Char → Option Reg
  | ['C', 'M', 'D'] => some .cmd
  | ['S', 'T', 'A', 'T', 'U', 'S'] => some .status
  | ['P', 'M', '_', 'C', 'H', 'K'] => some .pmChk
  | ['P', 'M', '_', 'C', 'K', 'S', 'U', 'M'] => some .pmCksum
  | ['B', 'C', '_', 'C', 'F', 'G'] => some .bcCfg
  | ['B', 'C', '_', 'A', 'C', 'C'] => some .bcAcc
  | ['B', 'C', '_', 'C', 'N', 'T'] => some .bcCnt
  | ['B', 'C', '_', 'E', 'R', 'R', 'I', 'N', 'F', 'O'] => some .bcErrinfo
  | ['B', 'C', '_', 'O', 'U', 'T'] => some .bcOut
  | ['C', 'K', 'S', 'Y', 'M', '0'] => some (.cksym 0)
  | ['C', 'K', 'S', 'Y', 'M', '1'] => some (.cksym 1)
  | ['C', 'K', 'S', 'Y', 'M', '2'] => some (.cksym 2)
  | ['C', 'K', 'S', 'Y', 'M', '3'] => some (.cksym 3)
  | ['C', 'K', 'S', 'Y', 'M', '4'] => some (.cksym 4)
  | ['C', 'K', 'S', 'Y', 'M', '5'] => some (.cksym 5)
  | _ => none

/-- A line whose mnemonic is followed by numbers. -/
def numericLine (mn : List Char) (ops : List Nat) : Option AsmLine :=
  match mn, ops with
  | ['n', 'o', 'p'], [] => some .nop
  | ['p', 'm', '.', 'i', 'n', 'i', 't'], [] => some .pmInit
  | ['p', 'm', '.', 's', 'y', 'm'], [s] => some (.pmSym s)
  | ['p', 'm', '.', 'h', 'r', 'p', 'h', 'i'], [c] => some (.pmHrphi c)
  | ['p', 'm', '.', 'h', 'r', 'p', 'l', 'o'], [c] => some (.pmHrplo c)
  | ['p', 'm', '.', 'g', 'e', 'n'], [] => some .pmGen
  | ['b', 'c', '.', 'c', 'f', 'g'], [f, t, p] => some (.bcCfg f t p)
  | ['b', 'c', '.', 'p', 'u', 's', 'h'], [v] => some (.bcPush v)
  | ['b', 'c', '.', 'f', 'l', 'u', 's', 'h'], [] => some .bcFlush
  | ['c', 'l', 'r', 'e', 'r', 'r'], [] => some .clrerr
  | ['r', 'e', 's', 'e', 't'], [] => some .reset
  | ['w', 'r'], [off, v] => some (.wr off v)
  | ['r', 'd'], [off] => some (.rd off)
  | ['p', 'm', '.', 's', 'e', 'p'], [] => some .pmSep
  | ['p', 'm', '.', 'd', 'a', 't', 'a'], ss => some (.pmData ss)
  | ['b', 'c', '.', 'b', '2', 's'], [] => some .bcB2s
  | ['b', 'c', '.', 's', '2', 'b'], [] => some .bcS2b
  | ['b', 'c', '.', 'b', 'y', 't', 'e', 's'], vs => some (.bcBytes vs)
  | ['r', 'd', '.', 'c', 'k', 's', 'y', 'm'], [] => some .rdCksym
  | _, _ => none

/-- A line's text (R99, R100; log entry 12). -/
def parseLine (text : List Char) : Option AsmLine :=
  let r := splitMnemonic (trimBlanks text)
  match r.1, readRegName (trimBlanks r.2) with
  | ['p', 'm', '.', 'h', 'r', 'p'], _ => (readString r.2).map .pmHrp
  | ['r', 'd'], some reg => some (.rdName reg)
  | mn, _ => (readOperands r.2).bind (numericLine mn)

end Sys2Proof.Machine
end

