-- ==== Sys2Proof/Machine/HostProcedures.lean ====
section
/-! DEFINITION. The host procedures of spec 46_host_procedures.md: the host's software around the block, which drives it by
bus transactions and branches on what it reads. "Every rule in this file binds the host, not the block." Characters and
strings are lists of bytes (log entry 9). Each procedure answers its result and the block it leaves. -/

namespace Sys2Proof.Machine

/-- Go on with the outcome's value. -/
def andThen {α β : Type} (o : Host.Outcome α Fault Refusal) (k : α → Host.Outcome β Fault Refusal) :
    Host.Outcome β Fault Refusal :=
  match o with
  | .next a => k a
  | .fault r => .fault r
  | .refused r => .refused r

/-- The errors a host procedure returns (R229). `hostDefect` is not of the source's taxonomy: one of the block's own
conditions was met, "a defect of its own, not a format error" (R229; log entry 11). -/
inductive HostError where
  | invalidCharacter
  | invalidSeparatorPosition
  | unknownDataCharacter (index : Nat) (value : Byte)
  | invalidChecksum
  | dataOutOfRange (index : Nat) (value : Int)
  | illegalPadding
  | nonZeroPadding
  | invalidWitnessVersion
  | invalidProgramLength
  | hrpMismatch
  | hostDefect
deriving DecidableEq, Repr

/-- `wr CMD, <command>`. -/
def hostCmd (i : Instr) (s : State) : Host.Outcome State Fault Refusal := perform (cmdTxn i) s

/-- Commands in order. -/
def hostCmds (is : List Instr) (s : State) : Host.Outcome State Fault Refusal := performAll (is.map cmdTxn) s

/-- `rd NAME`: the value and the block after the read. -/
def hostRead (r : Reg) (s : State) : Word × State := busRead (regOffset r) s

/-- Reads in order. -/
def hostReads : List Reg → State → List Word × State
  | [], s => ([], s)
  | r :: rs, s =>
    let a := hostRead r s
    let b := hostReads rs a.2
    (a.1 :: b.1, b.2)

/-- The code of an ASCII character. -/
def charCode (c : Char) : Byte := BitVec.ofNat 8 c.toNat

/-- The charset (R220): a symbol's value is its index. -/
def charset : List Byte :=
  ['q', 'p', 'z', 'r', 'y', '9', 'x', '8', 'g', 'f', '2', 't', 'v', 'd', 'w', '0',
   's', '3', 'j', 'n', '5', '4', 'k', 'h', 'c', 'e', '6', 'm', 'u', 'a', '7', 'l'].map charCode

/-- A symbol's character (R220). -/
def symbolChar (s : Symbol) : Byte := charset.getD s.toNat 0

/-- A character's symbol, if it is in the charset (R220). -/
def charSymbol (c : Byte) : Option Symbol := (charset.findIdx? (· == c)).map (BitVec.ofNat 5)

/-- The separator `'1'`. -/
def separator : Byte := charCode '1'

/-- Outside the code points 33..126 (R221, R225 step 1). -/
def unprintable (c : Byte) : Bool := c.toNat < 33 || 126 < c.toNat

/-- An upper-case letter. -/
def isUpper (c : Byte) : Bool := 65 ≤ c.toNat && c.toNat ≤ 90

/-- A lower-case letter. -/
def isLower (c : Byte) : Bool := 97 ≤ c.toNat && c.toNat ≤ 122

/-- Lower-case one character (R221). -/
def lowerChar (c : Byte) : Byte := if isUpper c then c + 32 else c

/-- The commands that feed a stream from the seed (R222, R223). "Here `h` is a lower-case prefix": `splitString` and
`bech32Encode`, which take a prefix from outside, lower-case it first (R221). -/
def checksumFeed (h : List Byte) (data : List Symbol) : List Instr := .pmInit :: (pmHrp h ++ pmData data)

/-- `verify-checksum(h, data)` (R222). -/
def verifyChecksum (h : List Byte) (data : List Symbol) (s : State) : Host.Outcome (Bool × State) Fault Refusal :=
  andThen (hostCmds (checksumFeed h data) s) fun s1 =>
    let r := hostRead .status s1
    .next (r.1.getLsbD 0, r.2)

/-- `create-checksum(h, data)` (R223). -/
def createChecksum (h : List Byte) (data : List Symbol) (s : State) :
    Host.Outcome (List Symbol × State) Fault Refusal :=
  andThen (hostCmds (checksumFeed h data ++ [.pmGen]) s) fun s1 =>
    let r := hostReads cksymRegs s1
    .next (r.1.map (·.extractLsb' 0 5), r.2)

/-- The index of the last `'1'` (R225 step 4). -/
def lastSeparator : List Byte → Option Nat
  | [] => none
  | c :: cs =>
    match lastSeparator cs with
    | some k => some (k + 1)
    | none => if c = separator then some 0 else none

/-- The data characters mapped through the charset, the first at index `j` of the string (R225 step 5). -/
def dataSymbols : Nat → List Byte → Except HostError (List Symbol)
  | _, [] => .ok []
  | j, c :: cs =>
    match charSymbol c with
    | none => .error (.unknownDataCharacter j c)
    | some x =>
      match dataSymbols (j + 1) cs with
      | .error e => .error e
      | .ok xs => .ok (x :: xs)

/-- The prefix and the data symbols of a string, or the error of R225's steps 1 to 5, in that order (R231). -/
def splitString (str : List Byte) : Except HostError (List Byte × List Symbol) :=
  if str.any unprintable then .error .invalidCharacter
  else if str.any isUpper && str.any isLower then .error .invalidCharacter
  else
    let low := str.map lowerChar
    match lastSeparator low with
    | none => .error .invalidSeparatorPosition
    | some pos =>
      if 1 ≤ pos ∧ pos + 7 ≤ low.length ∧ low.length ≤ 90 then
        match dataSymbols (pos + 1) (low.drop (pos + 1)) with
        | .error e => .error e
        | .ok data => .ok (low.take pos, data)
      else .error .invalidSeparatorPosition

/-- `decode(s)` (R225): steps 1 to 5 without the block, then the checksum and the payload. -/
def bech32Decode (str : List Byte) (s : State) :
    Host.Outcome (Except HostError (List Byte × List Symbol) × State) Fault Refusal :=
  match splitString str with
  | .error e => .next (.error e, s)
  | .ok (hrp, data) =>
    andThen (verifyChecksum hrp data s) fun r =>
      if r.1 then .next (.ok (hrp, data.take (data.length - Config.ckLen)), r.2)
      else .next (.error .invalidChecksum, r.2)

/-- The first value outside 0..31, with its index from `i` (R224 step 1). -/
def firstOutside : Nat → List Int → Option (Nat × Int)
  | _, [] => none
  | i, v :: vs => if 0 ≤ v ∧ v ≤ 31 then firstOutside (i + 1) vs else some (i, v)

/-- The string of a prefix, data and checksum (R224 step 3). -/
def renderString (hrp : List Byte) (symbols : List Symbol) : List Byte := hrp ++ [separator] ++ symbols.map symbolChar

/-- `encode(hrp, data)` (R224) with the host's `SELF_VERIFY` (R232). The prefix is lower-cased before it is fed (R221), and
stands in the string as the caller gave it (R224 step 3; log entry 23). -/
def bech32Encode (selfVerify : Bool) (hrp : List Byte) (data : List Int) (s : State) :
    Host.Outcome (Except HostError (List Byte) × State) Fault Refusal :=
  match firstOutside 0 data with
  | some (i, v) => .next (.error (.dataOutOfRange i v), s)
  | none =>
    let symbols := data.map fun v => BitVec.ofNat 5 v.toNat
    andThen (createChecksum (hrp.map lowerChar) symbols s) fun r =>
      let str := renderString hrp (symbols ++ r.1)
      if selfVerify then
        andThen (bech32Decode str r.2) fun d =>
          match d.1 with
          | .ok _ => .next (.ok str, d.2)
          | .error e => .next (.error e, d.2)
      else .next (.ok str, r.2)

/-- Read `BC_OUT` at most `fuel` times, until `VALID = 0` (70_reset_and_hazards.md R295). -/
def drainUpTo : Nat → State → List Byte × State
  | 0, s => ([], s)
  | fuel + 1, s =>
    let r := hostRead .bcOut s
    if r.1.getLsbD 8 then
      let q := drainUpTo fuel r.2
      (r.1.extractLsb' 0 8 :: q.1, q.2)
    else ([], r.2)

/-- Drain to empty: one read for each entry, and the one that returns `VALID = 0` (log entry 10). -/
def drain (s : State) : List Byte × State := drainUpTo (s.bc.fifo.length + 1) s

/-- Push each value and drain after each push, which never meets a full `FIFO` (R295). -/
def pushDrained : List Byte → State → Host.Outcome (List Byte × State) Fault Refusal
  | [], s => .next ([], s)
  | v :: vs, s =>
    andThen (hostCmd (.bcPush v) s) fun s1 =>
      let d := drain s1
      andThen (pushDrained vs d.2) fun r => .next (d.1 ++ r.1, r.2)

/-- A whole conversion: configure, push and drain, flush, drain (R226, R227 step 5). -/
def convertDrained (cfg : Instr) (vs : List Byte) (s : State) : Host.Outcome (List Byte × State) Fault Refusal :=
  andThen (hostCmd cfg s) fun s1 =>
    andThen (pushDrained vs s1) fun r =>
      andThen (hostCmd .bcFlush r.2) fun s2 =>
        let d := drain s2
        .next (r.1 ++ d.1, d.2)

/-- The result the host takes of a conversion, from `STATUS` and `BC_ERRINFO` (R228, R229). -/
def conversionResult (status errinfo : Word) (out : List Byte) : Except HostError (List Byte) :=
  match (status.extractLsb' 8 3).toNat with
  | 0 => .ok out
  | 1 => .error (.dataOutOfRange (errinfo.extractLsb' 0 16).toNat (errinfo.extractLsb' 16 8).toNat)
  | 2 => .error .illegalPadding
  | 3 => .error .nonZeroPadding
  | _ => .error .hostDefect

/-- A whole conversion and its result, read back from the block (R228, R229, R230). -/
def hostConvert (cfg : Instr) (vs : List Byte) (s : State) :
    Host.Outcome (Except HostError (List Byte) × State) Fault Refusal :=
  andThen (convertDrained cfg vs s) fun r =>
    let st := hostRead .status r.2
    let ei := hostRead .bcErrinfo st.2
    .next (conversionResult st.1 ei.1 r.1, ei.2)

/-- A witness program's length, for its version (R227 steps 6 and 7, 90_conflicts.md C1). -/
def programLengthOk (version : Symbol) (n : Nat) : Bool :=
  2 ≤ n && n ≤ 40 && (version != 0 || n == 20 || n == 32)

/-- `segwit_address_decode(hrp, addr)` (R227). -/
def segwitDecode (hrp addr : List Byte) (s : State) :
    Host.Outcome (Except HostError (Symbol × List Byte) × State) Fault Refusal :=
  andThen (bech32Decode addr s) fun r =>
    match r.1 with
    | .error e => .next (.error e, r.2)
    | .ok (h, data) =>
      if h ≠ hrp then .next (.error .hrpMismatch, r.2)
      else
        match data with
        | [] => .next (.error .invalidProgramLength, r.2)
        | version :: rest =>
          if version.toNat > 16 then .next (.error .invalidWitnessVersion, r.2)
          else
            andThen (hostConvert bcS2b (rest.map (·.setWidth 8)) r.2) fun c =>
              match c.1 with
              | .error e => .next (.error e, c.2)
              | .ok prog =>
                if programLengthOk version prog.length then .next (.ok (version, prog), c.2)
                else .next (.error .invalidProgramLength, c.2)

/-- `segwit_address_encode(hrp, version, program)` (R226): the conversion's failure test reads `BC_ERR` and `OVF` of
`STATUS`; the procedure does not clear an earlier `OVF` (log entry 11). -/
def segwitEncode (selfVerify : Bool) (hrp : List Byte) (version : Int) (program : List Byte) (s : State) :
    Host.Outcome (Except HostError (List Byte) × State) Fault Refusal :=
  andThen (convertDrained bcB2s program s) fun r =>
    let st := hostRead .status r.2
    if st.1.extractLsb' 8 3 ≠ 0 ∨ st.1.getLsbD 2 then .next (.error .hostDefect, st.2)
    else
      andThen (bech32Encode selfVerify hrp (version :: r.1.map fun c => (c.toNat : Int)) st.2) fun e =>
        match e.1 with
        | .error err => .next (.error err, e.2)
        | .ok addr =>
          if selfVerify then
            andThen (segwitDecode hrp addr e.2) fun d =>
              match d.1 with
              | .error err => .next (.error err, d.2)
              | .ok _ => .next (.ok addr, d.2)
          else .next (.ok addr, e.2)

end Sys2Proof.Machine
end

