-- ==== Sys2Proof/Machine/Reference.lean ====
section
/-! DEFINITION. The source's pure functions as the spec transcribes them (00_scope.md R15), on unbounded numbers and
apart from the block: `polymod` and its step (40_checksum.md R121), `hrp_expand` (R130), the checksum test and creation
(R131, R132), and `convert_bits` (41_convert.md R160). Statements compare the block with these. -/

namespace Sys2Proof.Machine.Ref

/-- The generator table, R120. -/
def gen : List Nat := [0x3b6a57b2, 0x26508e6d, 0x1ea119fa, 0x3d4233dd, 0x2a1462b3]

/-- `pmstep(chk, s)` of R121, on numbers. -/
def pmStep (chk s : Nat) : Nat :=
  let top := chk >>> 25
  (List.range 5).foldl (fun r i => if top.testBit i then r ^^^ gen.getD i 0 else r) ((chk &&& 0x1FFFFFF) <<< 5 ||| s)

/-- `polymod(seq)` (R15), "seeded at 1". -/
def polymod (seq : List Nat) : Nat := seq.foldl pmStep 1

/-- `hrp_expand(h)` (R15, R130). -/
def hrpExpand (h : List Nat) : List Nat := h.map (· >>> 5) ++ [0] ++ h.map (· &&& 31)

/-- `verify-checksum`: "true iff `polymod(hrp-expand(hrp) ++ data) == 1`" (R131). -/
def verifyChecksum (h data : List Nat) : Bool := polymod (hrpExpand h ++ data) == 1

/-- The 30-bit value of `create-checksum`, before its six symbols are taken (R127, R132). -/
def checksumValue (h data : List Nat) : Nat := polymod (hrpExpand h ++ data ++ List.replicate 6 0) ^^^ 1

/-- `create-checksum`: "extracts six 5-bit groups from this 30-bit value, most-significant group first" (R128, R132). -/
def createChecksum (h data : List Nat) : List Nat :=
  (List.range 6).map fun p => checksumValue h data >>> (5 * (5 - p)) &&& 31

/-- The errors of `convert_bits` (R160). -/
inductive ConvError where
  | dataOutOfRange (idx : Nat) (v : Int)
  | illegalPadding
  | nonZeroPadding
deriving DecidableEq, Repr

/-- The loop `while bits >= t` of R160. Each turn takes `t` off `bits`, so `bits` turns are enough when `t` is at least 1
(the widths the spec allows, R35). -/
def emitWhile (acc t : Nat) : Nat → Nat → List Nat × Nat
  | 0, bits => ([], bits)
  | fuel + 1, bits =>
    if bits ≥ t then
      let r := emitWhile acc t fuel (bits - t)
      ((acc >>> (bits - t) &&& mask t) :: r.1, r.2)
    else ([], bits)

/-- The loop over the values of R160, from the index `idx`: the accumulator, the bit count and the output list. -/
def feed (f t : Nat) : List Int → Nat → Nat → Nat → List Nat → Except ConvError (Nat × Nat × List Nat)
  | [], _, acc, bits, ret => .ok (acc, bits, ret)
  | v :: vs, idx, acc, bits, ret =>
    if 0 ≤ v ∧ v < 2 ^ f then
      let acc' := acc <<< f ||| v.toNat
      let e := emitWhile acc' t (bits + f) (bits + f)
      feed f t vs (idx + 1) acc' e.2 (ret ++ e.1)
    else .error (.dataOutOfRange idx v)

/-- The completion of R160. -/
def complete (f t : Nat) (pad : Bool) (acc bits : Nat) (ret : List Nat) : Except ConvError (List Nat) :=
  if pad then
    if bits > 0 then .ok (ret ++ [(acc &&& mask bits) <<< (t - bits) &&& mask t]) else .ok ret
  else if bits ≥ f then .error .illegalPadding
  else if acc &&& mask bits ≠ 0 then .error .nonZeroPadding
  else .ok ret

/-- `convert_bits(values, f, t, pad)` (R160). -/
def convertBits (values : List Int) (f t : Nat) (pad : Bool) : Except ConvError (List Nat) :=
  match feed f t values 0 0 0 [] with
  | .error e => .error e
  | .ok (acc, bits, ret) => complete f t pad acc bits ret

end Sys2Proof.Machine.Ref
end

