-- ==== Sys2Proof/Safety.lean ====
section
/-! DEFINITION. What counts as a safe run: the invariants the spec gives the block's state, the end of a run, and the
vocabulary the statements use (which commands belong to a unit, what a host drives through the converter). -/

namespace Sys2Proof.Machine

/-- The invariants of the block (spec 10_state.md R35, R36, R37, R39, R41, R42, 41_convert.md R165, 60_exceptions.md R266,
R267). Each holds after reset, and each transaction keeps it. -/
structure BlockInv (s : State) : Prop where
  /-- `FROM` in 1..8: "No other value is ever held" (R35). -/
  fromLegal : 1 ≤ s.bc.fromBits.toNat ∧ s.bc.fromBits.toNat ≤ 8
  /-- `TO` in 1..8 (R35). -/
  toLegal : 1 ≤ s.bc.toBits.toNat ∧ s.bc.toBits.toNat ≤ 8
  /-- `BITS < TO` (R36, R165). -/
  bitsBelow : s.bc.bits.toNat < s.bc.toBits.toNat
  /-- `ACC < 2^BITS` (R37, R165). -/
  accBelow : s.bc.acc.toNat < 2 ^ s.bc.bits.toNat
  /-- At most 8 entries (R41). -/
  fifoShort : s.bc.fifo.length ≤ 8
  /-- Each entry is below `2^TO` (R41, R165); `BC_CFG` empties the queue, so `TO` is the one it was emitted under. -/
  fifoBelow : ∀ e ∈ s.bc.fifo, e.toNat < 2 ^ s.bc.toBits.toNat
  /-- Codes 5 to 7 are never written (R39). -/
  errCode : s.bc.bcErr.toNat ≤ 4
  /-- "no partial result stays readable" (R266). -/
  errEmpty : s.bc.bcErr ≠ 0 → s.bc.fifo = []
  /-- In phase RUN the context is 0 (R40, R161). -/
  runContext : s.bc.bcErr = 0 → s.bc.errIdx = 0 ∧ s.bc.errVal = 0
  /-- BadConfig's index is 0 (R267). -/
  badConfigContext : s.bc.bcErr = 4 → s.bc.errIdx = 0
  /-- With `CMD_ERR` clear there is no cause (R42). -/
  noCause : s.ctl.cmdErr = false → s.ctl.cmdCause = 0
  /-- With `CMD_ERR` set the cause is 1, 2 or 3 (R42). -/
  cause : s.ctl.cmdErr = true → 1 ≤ s.ctl.cmdCause.toNat ∧ s.ctl.cmdCause.toNat ≤ 3

/-- The end of a run: "the state after the host's last transaction of a given finite transaction sequence that starts at
a reset" (70_reset_and_hazards.md R304). -/
def endOfRun (ts : List Txn) : Host.Outcome State Fault Refusal := performAll ts State.reset

/-- The PM unit's commands (10_state.md R30). -/
def isPmCommand : Instr → Bool
  | .pmInit | .pmSym _ | .pmHrphi _ | .pmHrplo _ | .pmGen => true
  | .nop | .bcCfg _ _ _ | .bcPush _ | .bcFlush | .clrerr | .reset => false

/-- The BC unit's commands (10_state.md R30). -/
def isBcCommand : Instr → Bool
  | .bcCfg _ _ _ | .bcPush _ | .bcFlush => true
  | .nop | .pmInit | .pmSym _ | .pmHrphi _ | .pmHrplo _ | .pmGen | .clrerr | .reset => false

/-- The command a transaction writes, if it writes a legal one to `CMD`. -/
def txnCommand : Txn → Option Instr
  | .memWrite off v =>
    if off = 0 then
      match decode v with
      | .command i => some i
      | .illegal _ => none
    else none
  | .memRead _ => none
  | .resetInput => none

/-- The symbol of a `PM_SYM` write. -/
def txnSymbol (t : Txn) : Option Symbol :=
  match txnCommand t with
  | some (.pmSym s) => some s
  | _ => none

/-- The transactions that may stand between the symbols of one checksum: `PM_SYM` itself, BC commands, `NOP`, `CLRERR`,
illegal words, erroneous accesses and reads; no other PM command and no reset (40_checksum.md R129). -/
def streamTxn (t : Txn) : Bool :=
  match t with
  | .resetInput => false
  | t =>
    match txnCommand t with
    | none => true
    | some (.pmSym _) => true
    | some i => !isPmCommand i && i != .reset

/-- The command is rejected for lack of `FIFO` space: it sets `OVF` and does nothing else (41_convert.md R162, R163). -/
def rejectedForSpace (i : Instr) (s : State) : Bool :=
  match i with
  | .bcPush v =>
    s.bc.bcErr == 0 && v.toNat < 2 ^ s.bc.fromBits.toNat &&
      8 < s.bc.fifo.length + (s.bc.bits.toNat + s.bc.fromBits.toNat) / s.bc.toBits.toNat
  | .bcFlush => s.bc.bcErr == 0 && s.bc.pad && s.bc.bits != 0 && s.bc.fifo.length == 8
  | _ => false

/-- `Drives is s out s'`: from `s` the host gets the commands `is` accepted in order, reading `BC_OUT` at any points, and
ends at `s'`; `out` is the `DATA` of every `VALID` read, in order (41_convert.md R168). In between it may do anything that
leaves the BC unit as it is: other reads, PM commands, `CLRERR`, or issuing a command that is rejected and must be
re-issued after draining. -/
inductive Drives : List Instr → State → List Byte → State → Prop
  /-- Nothing left to do. -/
  | done (s : State) : Drives [] s [] s
  /-- A transaction that leaves the BC unit as it is; a rejected command is one. -/
  | other {is s s1 out s2} (t : Txn) : perform t s = .next s1 → s1.bc = s.bc → Drives is s1 out s2 → Drives is s out s2
  /-- A `VALID` read of `BC_OUT`. -/
  | read {is s out s2} :
      (hostRead .bcOut s).1.getLsbD 8 = true → Drives is (hostRead .bcOut s).2 out s2 →
        Drives is s ((hostRead .bcOut s).1.extractLsb' 0 8 :: out) s2
  /-- The next command, not rejected. -/
  | command {i is s s1 out s2} :
      rejectedForSpace i s = false → exec i s = .next s1 → Drives is s1 out s2 → Drives (i :: is) s out s2

/-- The numbers of a list of bytes or symbols. -/
def nats {w : Nat} (l : List (BitVec w)) : List Nat := l.map (·.toNat)

/-- The same, as the source's integers. -/
def ints {w : Nat} (l : List (BitVec w)) : List Int := l.map fun b => (b.toNat : Int)

/-- The source's conversion result as the host reports it (46_host_procedures.md R229). -/
def hostResult : Except Ref.ConvError (List Nat) → Except HostError (List Byte)
  | .ok r => .ok (r.map (BitVec.ofNat 8))
  | .error (.dataOutOfRange i v) => .error (.dataOutOfRange i v)
  | .error .illegalPadding => .error .illegalPadding
  | .error .nonZeroPadding => .error .nonZeroPadding

/-- A value sequence as one big-endian bit string of `f`-bit values, read as a number (20_memory.md R70). -/
def bitString (f : Nat) (vs : List Nat) : Nat := vs.foldl (fun a v => a * 2 ^ f + v) 0

end Sys2Proof.Machine
end

