-- ==== Sys2Proof/Certificates/Slice0/Obligations.lean ====
section
/-! DEFINITION. The statements about the block. Each docstring names the rule of spec/ it formalises. A word literal is
the command's encoding by 30_encoding.md R93 and R99; an offset literal is a register's by 10_state.md R45. -/

section
open Sys2Proof Sys2Proof.Machine

/-! ## Reset -/

/-- R57, R290: the state after reset, element by element, and both reset sources write all of it at once. -/
def Obligations.ResetWritesEveryElement : Prop :=
  State.reset.pm = ⟨1, 0⟩ ∧ State.reset.bc = ⟨8, 5, true, 0, 0, 0, 0, 0, 0, []⟩ ∧ State.reset.ctl = ⟨false, 0, false, false⟩ ∧
    ∀ s, perform .resetInput s =
      .next { pm := State.reset.pm, bc := State.reset.bc, ctl := State.reset.ctl, pending := s.pending, reads := s.reads }

/-- R291: what each register reads right after reset, whatever the host has read or issued. -/
def Obligations.RegistersReadTheirResetValues : Prop :=
  ∀ s, s.pm = State.reset.pm → s.bc = State.reset.bc → s.ctl = State.reset.ctl →
    (hostRead .status s).1 = 0x00000001 ∧ (hostRead .pmChk s).1 = 0x00000001 ∧ (hostRead .pmCksum s).1 = 0x00000000 ∧
    (hostRead .bcCfg s).1 = 0x00000158 ∧ (hostRead .bcAcc s).1 = 0x00000000 ∧ (hostRead .bcCnt s).1 = 0x00000000 ∧
    (hostRead .bcErrinfo s).1 = 0x00000000 ∧ (hostRead .bcOut s).1 = 0x00000000 ∧
    ∀ p, (hostRead (.cksym p) s).1 = 0x00000000

/-! ## Encoding and decoding -/

/-- R99: words written out from the encoding, one for each command, decode to it. -/
def Obligations.WrittenOutWordsDecode : Prop :=
  decode 0x00000000 = .command .nop ∧ decode 0x00001000 = .command .pmInit ∧ decode 0x0000201F = .command (.pmSym 31) ∧
  decode 0x00003062 = .command (.pmHrphi 0x62) ∧ decode 0x00004063 = .command (.pmHrplo 0x63) ∧
  decode 0x00005000 = .command .pmGen ∧ decode 0x00008085 = .command (.bcCfg 5 8 false) ∧
  decode 0x000090D6 = .command (.bcPush 0xD6) ∧ decode 0x0000A000 = .command .bcFlush ∧
  decode 0x0000E000 = .command .clrerr ∧ decode 0x0000F000 = .command .reset

/-- R99, R97: the decoder gives back every encoded command, at every operand value. -/
def Obligations.DecodeOfEncodeIsTheCommand : Prop := ∀ i, decode (encode i) = .command i

/-- R93: each legal word is the encoding of the command it decodes to, so no two words mean one command. -/
def Obligations.EncodeOfDecodeIsTheWord : Prop := ∀ w i, decode w = .command i → encode i = w

/-- R93: "A word selects a legal command iff `(W & mask) == match` for one of the non-reserved rows. Those rows' match and
mask sets are disjoint", and the row that selects a word names its command. -/
def Obligations.LegalWordsAreTheRowsOfTheOpcodeMap : Prop :=
  (∀ w, (∃ i, decode w = .command i) ↔ ∃ r ∈ opcodeTable, r.selects w = true) ∧
  (∀ w i, decode w = .command i → ∀ r ∈ opcodeTable, r.selects w = true → r.mnemonic = mnemonicOf i) ∧
  opcodeTable.Pairwise fun r q => ∀ w, ¬ (r.selects w = true ∧ q.selects w = true)

/-- R94 to R97, R263: which words are illegal with which cause, in the order of R97; an illegal word does `cmd_illegal`
and nothing else; and every other word is performed, whatever its field values. -/
def Obligations.IllegalWordsRecordTheirCauseOnly : Prop :=
  ∀ (w : Word) (s : State),
    let op := w.toNat / 4096
    let low := w.toNat % 4096
    let illegal (c : BitVec 3) : State :=
      { s with ctl := { s.ctl with cmdErr := true, cmdCause := if s.ctl.cmdErr then s.ctl.cmdCause else c } }
    if 2 ^ 16 ≤ w.toNat then perform (.memWrite 0x00 w) s = .next (illegal 3)
    else if op ∈ [0x6, 0x7, 0xB, 0xC, 0xD] then perform (.memWrite 0x00 w) s = .next (illegal 1)
    else if (op ∈ [0x0, 0x1, 0x5, 0xA, 0xE, 0xF] ∧ low ≠ 0) ∨ (op = 0x2 ∧ 2 ^ 5 ≤ low) ∨ (op ∈ [0x3, 0x4, 0x9] ∧ 2 ^ 8 ≤ low) ∨
        (op = 0x8 ∧ 2 ^ 9 ≤ low) then perform (.memWrite 0x00 w) s = .next (illegal 2)
    else ∃ i, decode w = .command i ∧ perform (.memWrite 0x00 w) s = exec i s

/-- R99, R100: every assembler line, its encodings and expansions, and the refusal of an operand outside the listed range. A
number of `pm.hrp` is a character's code; the ranges of `wr` and `rd` are the widths of R61 (log entry 12). -/
def Obligations.AssemblerEncodesOrRefuses : Prop :=
  let word (n : Nat) : Txn := .memWrite 0x00 (BitVec.ofNat 32 n)
  (∀ n, assemble (.pmSym n) = if n ≤ 31 then some [word (0x2000 + n)] else none) ∧
  (∀ n, assemble (.pmHrphi n) = if n ≤ 255 then some [word (0x3000 + n)] else none) ∧
  (∀ n, assemble (.pmHrplo n) = if n ≤ 255 then some [word (0x4000 + n)] else none) ∧
  (∀ n, assemble (.bcPush n) = if n ≤ 255 then some [word (0x9000 + n)] else none) ∧
  (∀ f t p, assemble (.bcCfg f t p) =
    if f ≤ 15 ∧ t ≤ 15 ∧ p ≤ 1 then some [word (0x8000 + 256 * p + 16 * t + f)] else none) ∧
  (∀ off v, assemble (.wr off v) =
    if off ≤ 0x3F ∧ v < 2 ^ 32 then some [.memWrite (BitVec.ofNat 6 off) (BitVec.ofNat 32 v)] else none) ∧
  (∀ off, assemble (.rd off) = if off ≤ 0x3F then some [.memRead (BitVec.ofNat 6 off)] else none) ∧
  (∀ h, assemble (.pmHrp h) =
    if ∀ c ∈ h, c ≤ 255 then
      some (h.map (fun c => word (0x3000 + c)) ++ [word 0x2000] ++ h.map fun c => word (0x4000 + c))
    else none) ∧
  (∀ ss, assemble (.pmData ss) = if ∀ x ∈ ss, x ≤ 31 then some (ss.map fun x => word (0x2000 + x)) else none) ∧
  (∀ vs, assemble (.bcBytes vs) = if ∀ v ∈ vs, v ≤ 255 then some (vs.map fun v => word (0x9000 + v)) else none) ∧
  [AsmLine.nop, .pmInit, .pmGen, .bcFlush, .clrerr, .reset, .pmSep, .bcB2s, .bcS2b].map assemble =
    [0x0000, 0x1000, 0x5000, 0xA000, 0xE000, 0xF000, 0x2000, 0x8158, 0x8085].map (fun n => some [word n]) ∧
  [Reg.cmd, .status, .pmChk, .pmCksum, .bcCfg, .bcAcc, .bcCnt, .bcErrinfo, .bcOut].map (fun r => assemble (.rdName r)) =
    [0x00, 0x04, 0x08, 0x0C, 0x10, 0x14, 0x18, 0x1C, 0x20].map (fun off => some [.memRead off]) ∧
  (∀ p : Fin 6, assemble (.rdName (.cksym p)) = some [.memRead (BitVec.ofNat 6 (0x24 + 4 * p.val))]) ∧
  assemble .rdCksym = some ([0x24, 0x28, 0x2C, 0x30, 0x34, 0x38].map .memRead)

/-! ## Transactions and steps -/

/-- R68, R71, R90: a step performs the next pending transaction; a legal word written to `CMD` runs its command with the
transaction taken off the list, and an illegal one its record; `withFetchWord` puts a word there. Waiting with nothing
pending is the model's choice (log entry 3). -/
def Obligations.StepRunsTheDecodedCommand : Prop :=
  (∀ s w ts i, s.pending = .memWrite 0x00 w :: ts → decode w = .command i → step s = exec i { s with pending := ts }) ∧
  (∀ s w ts c, s.pending = .memWrite 0x00 w :: ts → decode w = .illegal c →
    step s = .next (cmdIllegal c { s with pending := ts })) ∧
  (∀ s t ts, s.pending = t :: ts → step s = perform t { s with pending := ts }) ∧
  (∀ s, s.pending = [] → step s = .next s) ∧
  (∀ s i, step (s.withFetchWord 32 (encode i).toNat) = exec i s)

/-- R260: "It never stops accepting transactions": every transaction, and so every step, has a next state. -/
def Obligations.EveryTransactionCompletes : Prop :=
  (∀ t s, ∃ s', perform t s = .next s') ∧ ∀ s, ∃ s', step s = .next s'

/-- R62 to R64: a misaligned or unmapped access, and a write to a read-only register, set `ACC_ERR` and do nothing else; the
read returns 0. -/
def Obligations.ErroneousAccessesSetAccErrOnly : Prop :=
  ∀ (off : Offset) (v : Word) (s : State),
    let flagged : State := { s with ctl := { s.ctl with accErr := true } }
    (off.toNat % 4 ≠ 0 ∨ off = 0x3C →
      (busRead off s).1 = 0 ∧ perform (.memRead off) s = .next { flagged with reads := s.reads ++ [0] } ∧
        perform (.memWrite off v) s = .next flagged) ∧
    (off.toNat % 4 = 0 → off ≠ 0x00 → perform (.memWrite off v) s = .next flagged)

/-- R66: only a read of `BC_OUT` with a non-empty `FIFO` has a side effect, and it removes the oldest entry; any other read
changes nothing but, when it is erroneous, `ACC_ERR`, and when repeated returns the same value. -/
def Obligations.OnlyAnOutputReadHasASideEffect : Prop :=
  ∀ (off : Offset) (s : State),
    let t := (busRead off s).2
    t.pm = s.pm ∧ t.pending = s.pending ∧ t.reads = s.reads ++ [(busRead off s).1] ∧
    t.ctl = (if off.toNat % 4 ≠ 0 ∨ off = 0x3C then { s.ctl with accErr := true } else s.ctl) ∧
    t.bc = (if off = 0x20 then { s.bc with fifo := s.bc.fifo.drop 1 } else s.bc) ∧
    (off ≠ 0x20 ∨ s.bc.fifo = [] → (busRead off t).1 = (busRead off s).1)

/-- R53, R164: a read of `BC_OUT` returns `VALID` with the oldest entry and removes it; with an empty `FIFO` it returns 0
and has no effect. -/
def Obligations.OutputReadPopsTheOldestEntry : Prop :=
  (∀ s e rest, s.bc.fifo = e :: rest →
    (busRead 0x20 s).1.toNat = 256 + e.toNat ∧
      (busRead 0x20 s).2 = { s with bc := { s.bc with fifo := rest }, reads := s.reads ++ [(busRead 0x20 s).1] }) ∧
  (∀ s, s.bc.fifo = [] → busRead 0x20 s = (0, { s with reads := s.reads ++ [0] })) ∧
  (busRead 0x20 State.reset).1 = 0

/-- R47 to R52, R54, R65: the layouts of the plain registers, read at their offsets, and their values after reset. -/
def Obligations.RegistersReadTheirFields : Prop :=
  (∀ s : State,
    (busRead 0x00 s) = (0, { s with reads := s.reads ++ [0] }) ∧
    (busRead 0x08 s).1.toNat = s.pm.chk.toNat ∧
    (busRead 0x0C s).1.toNat = s.pm.cksum.toNat ∧
    (busRead 0x10 s).1.toNat = s.bc.fromBits.toNat + 2 ^ 4 * s.bc.toBits.toNat + 2 ^ 8 * s.bc.pad.toNat ∧
    (busRead 0x14 s).1.toNat = s.bc.acc.toNat ∧
    (busRead 0x18 s).1.toNat = s.bc.cnt.toNat ∧
    (busRead 0x1C s).1.toNat = s.bc.errIdx.toNat + 2 ^ 16 * s.bc.errVal.toNat ∧
    ∀ p : Fin 6, (busRead (BitVec.ofNat 6 (0x24 + 4 * p.val)) s).1.toNat = s.pm.cksum.toNat / 2 ^ (5 * (5 - p.val)) % 2 ^ 5) ∧
  [0x08, 0x0C, 0x10, 0x14, 0x18, 0x1C, 0x24, 0x28, 0x2C, 0x30, 0x34, 0x38].map (fun off => (busRead off State.reset).1) =
    [0x00000001, 0, 0x00000158, 0, 0, 0, 0, 0, 0, 0, 0, 0]

/-- R46: every field of `STATUS` at its place, all other bits 0, no side effect, and its value after reset. -/
def Obligations.StatusReadsEveryFlag : Prop :=
  (∀ s : State, s.bc.fifo.length ≤ 8 →
    (busRead 0x04 s).1.toNat =
      (if s.pm.chk = 1 then 1 else 0) + 2 * s.ctl.cmdErr.toNat + 2 ^ 2 * s.ctl.ovf.toNat + 2 ^ 3 * s.ctl.accErr.toNat +
        2 ^ 4 * s.ctl.cmdCause.toNat + 2 ^ 8 * s.bc.bcErr.toNat + 2 ^ 12 * s.bc.fifo.length + 2 ^ 16 * s.bc.bits.toNat ∧
    (busRead 0x04 s).2 = { s with reads := s.reads ++ [(busRead 0x04 s).1] }) ∧
  (busRead 0x04 State.reset).1 = 0x00000001

/-- R56: reserved and "read 0" bits read 0 at all times, and a write anywhere but `CMD` changes no register but through
`ACC_ERR`. -/
def Obligations.ReservedBitsReadZero : Prop :=
  (∀ s : State,
    (∀ k, k = 7 ∨ k = 11 ∨ 19 ≤ k → (busRead 0x04 s).1.getLsbD k = false) ∧
    (∀ k, 30 ≤ k → (busRead 0x08 s).1.getLsbD k = false ∧ (busRead 0x0C s).1.getLsbD k = false) ∧
    (∀ k, 9 ≤ k → (busRead 0x10 s).1.getLsbD k = false ∧ (busRead 0x20 s).1.getLsbD k = false) ∧
    (∀ k, 7 ≤ k → (busRead 0x14 s).1.getLsbD k = false) ∧
    (∀ k, 16 ≤ k → (busRead 0x18 s).1.getLsbD k = false) ∧
    (∀ k, 24 ≤ k → (busRead 0x1C s).1.getLsbD k = false) ∧
    (∀ (p : Fin 6) k, 5 ≤ k → (busRead (BitVec.ofNat 6 (0x24 + 4 * p.val)) s).1.getLsbD k = false)) ∧
  ∀ off v s t, off ≠ 0x00 → perform (.memWrite off v) s = .next t → t.pm = s.pm ∧ t.bc = s.bc ∧
    t.ctl.cmdErr = s.ctl.cmdErr ∧ t.ctl.cmdCause = s.ctl.cmdCause ∧ t.ctl.ovf = s.ctl.ovf

/-- R304, R71: a run over the pending transactions, one step each, ends where performing them in issue order ends. -/
def Obligations.ARunPerformsThePendingTransactionsInOrder : Prop :=
  ∀ ts s, s.pending = ts → Sys2Proof.core.run ts.length s = performAll ts { s with pending := [] }

/-- R305 (with the model's own fields, log entries 1 and 2): a transaction records exactly the value its read returns, a
write or the reset records nothing, and no transaction changes what is still pending. -/
def Obligations.OnlyReadsAreObserved : Prop :=
  ∀ t s s', perform t s = .next s' →
    s'.pending = s.pending ∧
    s'.reads = match t with
      | .memRead off => s.reads ++ [(busRead off s).1]
      | _ => s.reads

/-! ## The PM unit -/

/-- R121, R122: the block's polymod step is the source's, and stays below 2^30. -/
def Obligations.PolymodStepIsTheSourcesAndStaysInWidth : Prop :=
  (∀ (chk : Chk) (x : Symbol), (pmstep chk x).toNat = Ref.pmStep chk.toNat x.toNat) ∧
  ∀ chk x, chk < 2 ^ 30 → x < 2 ^ 5 → Ref.pmStep chk x < 2 ^ 30

/-- R123: `PM_INIT` seeds `CHK`; `PM_ONE` then reads 1; `CKSUM`, its views and the BC unit keep their values; twice is once. -/
def Obligations.PmInitSeedsTheAccumulator : Prop :=
  ∀ s : State, ∃ t, exec .pmInit s = .next t ∧ perform (.memWrite 0x00 0x00001000) s = .next t ∧
    t.pm.chk = 1 ∧ t.pm.cksum = s.pm.cksum ∧ (∀ p, (hostRead (.cksym p) t).1 = (hostRead (.cksym p) s).1) ∧
    (hostRead .status t).1.getLsbD 0 = true ∧
    t.bc = s.bc ∧ t.ctl = s.ctl ∧ t.pending = s.pending ∧ t.reads = s.reads ∧ exec .pmInit t = .next t

/-- R124: `PM_SYM S` is one polymod step with `S`, with its corner cases; `PM_ONE` follows `CHK`; nothing else changes. -/
def Obligations.PmSymIsOnePolymodStep : Prop :=
  ∀ (x : Symbol) (s : State), ∃ t, exec (.pmSym x) s = .next t ∧
    perform (.memWrite 0x00 (BitVec.ofNat 32 (0x2000 + x.toNat))) s = .next t ∧
    t.pm.chk.toNat = Ref.pmStep s.pm.chk.toNat x.toNat ∧
    (s.pm.chk = 0 → t.pm.chk.toNat = x.toNat) ∧
    (s.pm.chk.toNat < 2 ^ 25 → t.pm.chk.toNat = s.pm.chk.toNat * 32 + x.toNat) ∧
    (t.pm.chk = 0 → s.pm.chk = 0 ∨ x ≠ 0) ∧
    ((hostRead .status t).1.getLsbD 0 = true ↔ t.pm.chk = 1) ∧
    t.pm.cksum = s.pm.cksum ∧ t.bc = s.bc ∧ t.ctl = s.ctl ∧ t.pending = s.pending ∧ t.reads = s.reads

/-- R125: `PM_HRPHI C` feeds the high 3 bits of any 8-bit `C`, which are 1..3 in the printable range; no case or range
check. -/
def Obligations.PmHrphiFeedsTheHighBits : Prop :=
  ∀ (c : Byte) (s : State), ∃ t, exec (.pmHrphi c) s = .next t ∧
    perform (.memWrite 0x00 (BitVec.ofNat 32 (0x3000 + c.toNat))) s = .next t ∧
    t.pm.chk.toNat = Ref.pmStep s.pm.chk.toNat (c.toNat / 2 ^ 5) ∧ c.toNat / 2 ^ 5 ≤ 7 ∧
    (33 ≤ c.toNat → c.toNat ≤ 126 → 1 ≤ c.toNat / 2 ^ 5 ∧ c.toNat / 2 ^ 5 ≤ 3) ∧
    t.pm.cksum = s.pm.cksum ∧ t.bc = s.bc ∧ t.ctl = s.ctl ∧ t.pending = s.pending ∧ t.reads = s.reads

/-- R126: `PM_HRPLO C` feeds the low 5 bits of any 8-bit `C`, and ignores the others. -/
def Obligations.PmHrploFeedsTheLowBits : Prop :=
  ∀ (c : Byte) (s : State), ∃ t, exec (.pmHrplo c) s = .next t ∧
    perform (.memWrite 0x00 (BitVec.ofNat 32 (0x4000 + c.toNat))) s = .next t ∧
    t.pm.chk.toNat = Ref.pmStep s.pm.chk.toNat (c.toNat % 2 ^ 5) ∧
    (∀ d : Byte, d.toNat % 2 ^ 5 = c.toNat % 2 ^ 5 → exec (.pmHrplo d) s = .next t) ∧
    t.pm.cksum = s.pm.cksum ∧ t.bc = s.bc ∧ t.ctl = s.ctl ∧ t.pending = s.pending ∧ t.reads = s.reads

/-- R127, R128: `PM_GEN` runs six zero steps into `CHK` and takes `CHK ^ 1` as `CKSUM`, which the six views show from the
top; nothing else changes. -/
def Obligations.PmGenCreatesTheChecksum : Prop :=
  ∀ s : State, ∃ t, exec .pmGen s = .next t ∧ perform (.memWrite 0x00 0x00005000) s = .next t ∧
    t.pm.chk.toNat = (List.replicate 6 0).foldl Ref.pmStep s.pm.chk.toNat ∧ t.pm.cksum = t.pm.chk ^^^ 1 ∧
    (∀ p : Fin 6, (hostRead (.cksym p) t).1.toNat = t.pm.cksum.toNat / 2 ^ (5 * (5 - p.val)) % 2 ^ 5) ∧
    ((hostRead .status t).1.getLsbD 0 = true ↔ t.pm.chk = 1) ∧
    t.bc = s.bc ∧ t.ctl = s.ctl ∧ t.pending = s.pending ∧ t.reads = s.reads

/-- R124: `CHK` "can reach 0 only as the result of a data step", one that feeds a symbol other than 0. -/
def Obligations.ChkReachesZeroOnlyByADataStep : Prop :=
  ∀ i s t, exec i s = .next t → s.pm.chk ≠ 0 → t.pm.chk = 0 →
    (∃ x : Symbol, x ≠ 0 ∧ i = .pmSym x) ∨ (∃ c : Byte, c.toNat / 32 ≠ 0 ∧ i = .pmHrphi c) ∨
      ∃ c : Byte, c.toNat % 32 ≠ 0 ∧ i = .pmHrplo c

/-- R129: after `PM_INIT`, a stream of `PM_SYM` writes leaves `CHK = polymod` of their symbols, whatever BC commands, reads
and other transactions that are not PM commands or resets come in between. -/
def Obligations.AStreamOfSymbolsLeavesItsPolymod : Prop :=
  ∀ ts s, (∀ t ∈ ts, streamTxn t = true) →
    ∃ s', performAll (.memWrite 0x00 0x00001000 :: ts) s = .next s' ∧
      s'.pm.chk.toNat = Ref.polymod (nats (ts.filterMap txnSymbol))

/-- R130: the feed of a prefix is its `hrp_expand`, which has 2n+1 symbols. -/
def Obligations.ThePrefixFeedIsHrpExpand : Prop :=
  ∀ h s, pmHrp h = h.map .pmHrphi ++ [.pmSym 0] ++ h.map .pmHrplo ∧
    (Ref.hrpExpand (nats h)).length = 2 * h.length + 1 ∧
    ∃ t, hostCmds (pmHrp h) s = .next t ∧ t.pm.chk.toNat = (Ref.hrpExpand (nats h)).foldl Ref.pmStep s.pm.chk.toNat ∧
      t.pm.cksum = s.pm.cksum ∧ t.bc = s.bc ∧ t.ctl = s.ctl ∧ t.pending = s.pending ∧ t.reads = s.reads

/-- R131, R222: the host's verification answers the source's `verify-checksum`, and right after `PM_INIT` `PM_ONE` is 1. -/
def Obligations.VerificationAnswersVerifyChecksum : Prop :=
  (∀ h data s, ∃ t, verifyChecksum h data s = .next (Ref.verifyChecksum (nats h) (nats data), t) ∧
    (Ref.verifyChecksum (nats h) (nats data) = true ↔ t.pm.chk = 1) ∧ t.bc = s.bc ∧ t.ctl = s.ctl) ∧
  ∀ s t, exec .pmInit s = .next t → (hostRead .status t).1.getLsbD 0 = true

/-- R132, R223: the host's creation answers the source's `create-checksum`, and re-feeding the stream with the six symbols
appended verifies. -/
def Obligations.CreationAnswersAChecksumThatVerifies : Prop :=
  ∀ h data s, ∃ ck t, createChecksum h data s = .next (ck, t) ∧ nats ck = Ref.createChecksum (nats h) (nats data) ∧
    ck.length = 6 ∧ t.bc = s.bc ∧ t.ctl = s.ctl ∧ ∃ t', verifyChecksum h (data ++ ck) t = .next (true, t')

/-- 90_conflicts.md C9 asks no proof of this; R121 and R129 give it for every string: replacing one data or checksum symbol
of a stream that verifies gives a stream that does not. -/
def Obligations.OneReplacedSymbolIsDetected : Prop :=
  ∀ (h : List Byte) (before after : List Symbol) (x y : Symbol) (s : State), x ≠ y →
    (∃ t, verifyChecksum h (before ++ x :: after) s = .next (true, t)) →
    ∃ t, verifyChecksum h (before ++ y :: after) s = .next (false, t)

/-! ## The BC unit -/

/-- R161: a legal `BC_CFG` starts a fresh conversion in either phase; one with a width outside 1..8 records BadConfig with
its low byte, keeps the configuration, the residue and `CNT`, and empties `FIFO`. No command but a legal `BC_CFG` and
`RESET` leaves phase ERROR. Equal widths make a push pass its in-range value through. A push ignores `PAD`. -/
def Obligations.BcCfgConfiguresOrRecordsBadConfig : Prop :=
  (∀ (f t : BitVec 4) (p : Bool) (s : State), ∃ s', exec (.bcCfg f t p) s = .next s' ∧
    perform (.memWrite 0x00 (BitVec.ofNat 32 (0x8000 + 256 * p.toNat + 16 * t.toNat + f.toNat))) s = .next s' ∧
    s'.pm = s.pm ∧ s'.ctl = s.ctl ∧ s'.pending = s.pending ∧ s'.reads = s.reads ∧
    if (1 ≤ f.toNat ∧ f.toNat ≤ 8) ∧ 1 ≤ t.toNat ∧ t.toNat ≤ 8 then
      s'.bc.fromBits = f ∧ s'.bc.toBits = t ∧ s'.bc.pad = p ∧ s'.bc.acc = 0 ∧ s'.bc.bits = 0 ∧ s'.bc.cnt = 0 ∧
        s'.bc.bcErr = 0 ∧ s'.bc.errIdx = 0 ∧ s'.bc.errVal = 0 ∧ s'.bc.fifo = []
    else
      s'.bc = { s.bc with bcErr := 4, errIdx := 0, errVal := BitVec.ofNat 8 (16 * t.toNat + f.toNat), fifo := [] }) ∧
  (∀ i s t, exec i s = .next t → s.bc.bcErr ≠ 0 → t.bc.bcErr = 0 →
    i = .reset ∨ ∃ f g p, i = .bcCfg f g p ∧ widthLegal f = true ∧ widthLegal g = true) ∧
  (∀ v s, s.bc.fromBits = s.bc.toBits → widthLegal s.bc.toBits = true → s.bc.bits = 0 → s.bc.acc = 0 → s.bc.bcErr = 0 →
    v.toNat < 2 ^ s.bc.fromBits.toNat → s.bc.fifo.length < 8 →
    exec (.bcPush v) s = .next { s with bc := { s.bc with cnt := s.bc.cnt + 1, fifo := s.bc.fifo ++ [v] } }) ∧
  ∀ v p s t, exec (.bcPush v) s = .next t →
    exec (.bcPush v) { s with bc := { s.bc with pad := p } } = .next { t with bc := { t.bc with pad := p } }

/-- R162: `BC_PUSH V` by cases, in the order of R270: ignored in phase ERROR; DataOutOfRange with the index and the value;
rejected with `OVF` alone; accepted, with the completed groups appended most significant first, the residue and its length
kept, and `CNT` advanced modulo 2^16. -/
def Obligations.BcPushAppendsOneValue : Prop :=
  ∀ (v : Byte) (s : State), BlockInv s → ∃ t, exec (.bcPush v) s = .next t ∧
    perform (.memWrite 0x00 (BitVec.ofNat 32 (0x9000 + v.toNat))) s = .next t ∧
    let f := s.bc.fromBits.toNat
    let g := s.bc.toBits.toNat
    let a := s.bc.acc.toNat * 2 ^ f + v.toNat
    let b := s.bc.bits.toNat + f
    if s.bc.bcErr ≠ 0 then t = s
    else if 2 ^ f ≤ v.toNat then t = { s with bc := { s.bc with bcErr := 1, errIdx := s.bc.cnt, errVal := v, fifo := [] } }
    else if 8 < s.bc.fifo.length + b / g then t = { s with ctl := { s.ctl with ovf := true } }
    else
      t = { s with bc := t.bc } ∧
      t.bc = { s.bc with acc := t.bc.acc, bits := t.bc.bits, cnt := t.bc.cnt, fifo := t.bc.fifo } ∧
      t.bc.fifo = s.bc.fifo ++ (List.range (b / g)).map (fun k => BitVec.ofNat 8 (a / 2 ^ (b - (k + 1) * g) % 2 ^ g)) ∧
      t.bc.bits.toNat = b % g ∧ t.bc.acc.toNat = a % 2 ^ (b % g) ∧ t.bc.cnt.toNat = (s.bc.cnt.toNat + 1) % 2 ^ 16

/-- R163: `BC_FLUSH` by cases, in the order of R270: ignored in phase ERROR; padded, rejected with `OVF` alone, or the
residue emitted left-shifted; strict, IllegalPadding, then NonZeroPadding, else success. A success keeps the configuration
and the queue, and leaves an empty residue and `CNT` 0. -/
def Obligations.BcFlushCompletesTheConversion : Prop :=
  ∀ s : State, BlockInv s → ∃ t, exec .bcFlush s = .next t ∧ perform (.memWrite 0x00 0x0000A000) s = .next t ∧
    let b := s.bc.bits.toNat
    let g := s.bc.toBits.toNat
    let finished (q : List Byte) : State := { s with bc := { s.bc with acc := 0, bits := 0, cnt := 0, fifo := q } }
    let bad (code : BitVec 3) : State :=
      { s with bc := { s.bc with bcErr := code, errIdx := s.bc.cnt, errVal := s.bc.acc.setWidth 8, fifo := [] } }
    if s.bc.bcErr ≠ 0 then t = s
    else if s.bc.pad = true then
      if b = 0 then t = finished s.bc.fifo
      else if s.bc.fifo.length = 8 then t = { s with ctl := { s.ctl with ovf := true } }
      else t = finished (s.bc.fifo ++ [BitVec.ofNat 8 (s.bc.acc.toNat * 2 ^ (g - b))])
    else if s.bc.fromBits.toNat ≤ b then t = bad 2
    else if s.bc.acc ≠ 0 then t = bad 3
    else t = finished s.bc.fifo

/-- R166: one accepted push emits at most 8 groups, 8 only at `FROM = 8`, `TO = 1`, so an empty `FIFO` takes any single push;
the counts for 8 to 5 and 5 to 8; and a padded flush emits at most one group. -/
def Obligations.OnePushFitsAnEmptyFifo : Prop :=
  ∀ s : State, BlockInv s →
    let f := s.bc.fromBits.toNat
    let g := s.bc.toBits.toNat
    let n := (s.bc.bits.toNat + f) / g
    n ≤ (g - 1 + f) / g ∧ n ≤ 8 ∧ (n = 8 → f = 8 ∧ g = 1) ∧ (f = 8 → g = 5 → n = 1 ∨ n = 2) ∧ (f = 5 → g = 8 → n = 0 ∨ n = 1) ∧
    (∀ v t, s.bc.bcErr = 0 → v.toNat < 2 ^ f → s.bc.fifo = [] → exec (.bcPush v) s = .next t →
      t.ctl = s.ctl ∧ t.bc.cnt = s.bc.cnt + 1 ∧ t.bc.fifo.length = n) ∧
    (∀ t, s.bc.bcErr = 0 → s.bc.pad = true → exec .bcFlush s = .next t → t.bc.fifo.length ≤ s.bc.fifo.length + 1)

/-- R295: the host's space test on what it reads from `STATUS` and `BC_CFG` tells exactly which push and which padded flush
are rejected. -/
def Obligations.TheSpaceTestPredictsRejection : Prop :=
  ∀ s : State, BlockInv s → s.bc.bcErr = 0 →
    let st := (hostRead .status s).1
    let cfg := (hostRead .bcCfg s).1
    let count := (st.extractLsb' 12 4).toNat
    let bits := (st.extractLsb' 16 3).toNat
    let f := (cfg.extractLsb' 0 4).toNat
    let g := (cfg.extractLsb' 4 4).toNat
    (∀ v : Byte, v.toNat < 2 ^ f →
      (exec (.bcPush v) s = .next (overflow s) ∧ rejectedForSpace (.bcPush v) s = true ↔ ¬ (bits + f) / g ≤ 8 - count)) ∧
    (cfg.getLsbD 8 = true → bits > 0 →
      (exec .bcFlush s = .next (overflow s) ∧ rejectedForSpace .bcFlush s = true ↔ ¬ count ≤ 7))

/-- R165: after a `BC_CFG`, once values have been driven in and none was out of range, the residue is the source's: the bit
counts agree, `ACC` is the source's accumulator below `bits`, the groups read and queued are the source's, and the
invariants hold. -/
def Obligations.TheResidueIsTheSourcesAccumulator : Prop :=
  ∀ (f t : BitVec 4) (p : Bool) (vs : List Byte) (s s1 s2 : State) (out : List Byte) (acc bits : Nat) (ret : List Nat),
    1 ≤ f.toNat → f.toNat ≤ 8 → 1 ≤ t.toNat → t.toNat ≤ 8 →
    exec (.bcCfg f t p) s = .next s1 → Drives (vs.map .bcPush) s1 out s2 →
    Ref.feed f.toNat t.toNat (ints vs) 0 0 0 [] = .ok (acc, bits, ret) →
    s2.bc.bits.toNat = bits ∧ s2.bc.acc.toNat = acc % 2 ^ bits ∧ nats (out ++ s2.bc.fifo) = ret ∧
      s2.bc.bits.toNat < s2.bc.toBits.toNat ∧ s2.bc.acc.toNat < 2 ^ s2.bc.bits.toNat ∧
      ∀ e ∈ out ++ s2.bc.fifo, e.toNat < 2 ^ t.toNat

/-- R168: from `BC_CFG` to the accepted `BC_FLUSH`, however the host reads `BC_OUT` and re-issues rejected commands in
between, the entries read and queued are `convert_bits`, or `BC_ERR` is its error with its context; and in phase ERROR a
push or a flush does nothing. -/
def Obligations.AConversionIsConvertBits : Prop :=
  (∀ (f t : BitVec 4) (p : Bool) (vs : List Byte) (s s1 s2 : State) (out : List Byte),
    1 ≤ f.toNat → f.toNat ≤ 8 → 1 ≤ t.toNat → t.toNat ≤ 8 → vs.length < 2 ^ 16 →
    exec (.bcCfg f t p) s = .next s1 → Drives (vs.map .bcPush ++ [.bcFlush]) s1 out s2 →
    match Ref.convertBits (ints vs) f.toNat t.toNat p with
    | .ok ret => s2.bc.bcErr = 0 ∧ nats (out ++ s2.bc.fifo) = ret
    | .error (.dataOutOfRange idx v) =>
      s2.bc.bcErr = 1 ∧ s2.bc.errIdx.toNat = idx ∧ (s2.bc.errVal.toNat : Int) = v ∧ s2.bc.cnt.toNat = idx ∧ s2.bc.fifo = []
    | .error .illegalPadding => s2.bc.bcErr = 2
    | .error .nonZeroPadding => s2.bc.bcErr = 3) ∧
  ∀ s : State, s.bc.bcErr ≠ 0 → (∀ v, exec (.bcPush v) s = .next s) ∧ exec .bcFlush s = .next s

/-- R168, R228, R229: the host that drains after every push gets `convert_bits` or its error, from every state. -/
def Obligations.TheDrainingHostGetsConvertBits : Prop :=
  ∀ (f t : BitVec 4) (p : Bool) (vs : List Byte) (s : State),
    1 ≤ f.toNat → f.toNat ≤ 8 → 1 ≤ t.toNat → t.toNat ≤ 8 → vs.length < 2 ^ 16 →
    ∃ s', hostConvert (.bcCfg f t p) vs s = .next (hostResult (Ref.convertBits (ints vs) f.toNat t.toNat p), s') ∧
      s'.pm = s.pm ∧ s'.ctl = s.ctl

/-- R169: bytes converted to symbols with padding and strictly back are the bytes; the padded pass gives `ceil(8n/5)` groups,
whose last carries fewer than 5 pad bits, all zero. The other direction fails when the residue is 5 or more bits, or not
zero. -/
def Obligations.BytesSurviveTheRoundTrip : Prop :=
  (∀ b : List Byte, ∃ g, Ref.convertBits (ints b) 8 5 true = .ok g ∧ g.length = (8 * b.length + 4) / 5 ∧
    5 * g.length - 8 * b.length ≤ 4 ∧ (∀ x, g.getLast? = some x → x % 2 ^ (5 * g.length - 8 * b.length) = 0) ∧
    Ref.convertBits (g.map fun x => (x : Int)) 5 8 false = .ok (nats b)) ∧
  ∀ g : List Symbol,
    (5 ≤ 5 * g.length % 8 → Ref.convertBits (ints g) 5 8 false = .error .illegalPadding) ∧
    (5 * g.length % 8 < 5 → bitString 5 (nats g) % 2 ^ (5 * g.length % 8) ≠ 0 →
      Ref.convertBits (ints g) 5 8 false = .error .nonZeroPadding)

/-- R170: the output lengths of `convert_bits`, and what a strict success requires of the bit string. -/
def Obligations.OutputLengths : Prop :=
  ∀ (vs : List Nat) (f t : Nat) (p : Bool) (ret : List Nat), 1 ≤ f → 1 ≤ t →
    Ref.convertBits (vs.map fun v => (v : Int)) f t p = .ok ret →
    if p then ret.length = (vs.length * f + t - 1) / t
    else ret.length = vs.length * f / t ∧ vs.length * f % t < f ∧ bitString f vs % 2 ^ (vs.length * f % t) = 0

/-! ## Control commands -/

/-- R200: `NOP` changes nothing, and the word one bit above it is illegal with cause 2. -/
def Obligations.NopChangesNothing : Prop :=
  ∀ s : State, exec .nop s = .next s ∧ perform (.memWrite 0x00 0x00000000) s = .next s ∧
    perform (.memWrite 0x00 0x00000001) s = .next (cmdIllegal .reservedOperandBits s)

/-- R201: `CLRERR` clears `CMD_ERR`, `CMD_CAUSE`, `OVF` and `ACC_ERR` and nothing else; a word that resembles it sets
`CMD_ERR`. -/
def Obligations.ClrerrClearsTheStickyFlags : Prop :=
  ∀ s : State, ∃ t, exec .clrerr s = .next t ∧ perform (.memWrite 0x00 0x0000E000) s = .next t ∧
    t.ctl.cmdErr = false ∧ t.ctl.cmdCause = 0 ∧ t.ctl.ovf = false ∧ t.ctl.accErr = false ∧
    t.bc = s.bc ∧ t.pm = s.pm ∧ t.pending = s.pending ∧ t.reads = s.reads ∧
    ∃ t', perform (.memWrite 0x00 0x0000E001) s = .next t' ∧ t'.ctl.cmdErr = true

/-- R202: `RESET` is the reset event, has no effect outside the block, and leaves `STATUS` and `BC_CFG` reading their reset
values. -/
def Obligations.ResetCommandIsTheResetEvent : Prop :=
  ∀ s : State, ∃ t, exec .reset s = .next t ∧ perform (.memWrite 0x00 0x0000F000) s = .next t ∧
    perform .resetInput s = .next t ∧ t.pm = State.reset.pm ∧ t.bc = State.reset.bc ∧ t.ctl = State.reset.ctl ∧
    t.pending = s.pending ∧ t.reads = s.reads ∧ (hostRead .status t).1 = 0x00000001 ∧ (hostRead .bcCfg t).1 = 0x00000158

/-! ## The whole machine -/

/-- R57 with the model's reset: the invariants hold after reset. -/
def Obligations.InvariantsHoldAfterReset : Prop := BlockInv State.reset

/-- R35, R36, R37, R39, R41, R42, R165: every step keeps the invariants, from every state that has them. -/
def Obligations.EveryStepKeepsTheInvariants : Prop := ∀ s s', BlockInv s → step s = .next s' → BlockInv s'

/-- R30, R133: no PM command reads or writes BC state and no BC command reads or writes PM state; a PM command writes no
control state either, and a BC command none but `OVF`, which depends on the BC unit and `OVF` alone. Of all commands only `RESET` changes both units. -/
def Obligations.TheTwoUnitsShareNothing : Prop :=
  (∀ i s1 s2 t1 t2, isPmCommand i = true → s1.pm = s2.pm → exec i s1 = .next t1 → exec i s2 = .next t2 →
    t1.pm = t2.pm ∧ t1.bc = s1.bc ∧ t1.ctl = s1.ctl) ∧
  (∀ i s1 s2 t1 t2, isBcCommand i = true → s1.bc = s2.bc → exec i s1 = .next t1 → exec i s2 = .next t2 →
    t1.bc = t2.bc ∧ t1.pm = s1.pm ∧ t1.ctl.cmdErr = s1.ctl.cmdErr ∧ t1.ctl.cmdCause = s1.ctl.cmdCause ∧
      t1.ctl.accErr = s1.ctl.accErr ∧ (s1.ctl.ovf = s2.ctl.ovf → t1.ctl.ovf = t2.ctl.ovf)) ∧
  ∀ i s t, exec i s = .next t → t.pm ≠ s.pm → t.bc ≠ s.bc → i = .reset

/-- R302: a PM command and a BC command may be issued in either order. -/
def Obligations.TheTwoUnitsInterleaveFreely : Prop :=
  ∀ i j s, isPmCommand i = true → isBcCommand j = true →
    ∃ t, performAll [cmdTxn i, cmdTxn j] s = .next t ∧ performAll [cmdTxn j, cmdTxn i] s = .next t

/-- R33 to R44: each element changes only by the transactions its rule lists as its writers. -/
def Obligations.EachElementHasItsWritersOnly : Prop :=
  ∀ t s s', perform t s = .next s' →
    let byReset := t = .resetInput ∨ txnCommand t = some .reset
    let byPush := ∃ v, txnCommand t = some (.bcPush v)
    let byFlush := txnCommand t = some .bcFlush
    let byCfg := ∃ f g p, txnCommand t = some (.bcCfg f g p)
    let byLegalCfg := ∃ f g p, txnCommand t = some (.bcCfg f g p) ∧ widthLegal f = true ∧ widthLegal g = true
    (s'.pm.chk ≠ s.pm.chk → byReset ∨ ∃ i, txnCommand t = some i ∧ isPmCommand i = true) ∧
    (s'.pm.cksum ≠ s.pm.cksum → byReset ∨ txnCommand t = some .pmGen) ∧
    (s'.bc.fromBits ≠ s.bc.fromBits ∨ s'.bc.toBits ≠ s.bc.toBits ∨ s'.bc.pad ≠ s.bc.pad → byReset ∨ byLegalCfg) ∧
    (s'.bc.bits ≠ s.bc.bits ∨ s'.bc.acc ≠ s.bc.acc ∨ s'.bc.cnt ≠ s.bc.cnt → byReset ∨ byLegalCfg ∨ byPush ∨ byFlush) ∧
    (s'.bc.bcErr ≠ s.bc.bcErr ∨ s'.bc.errIdx ≠ s.bc.errIdx ∨ s'.bc.errVal ≠ s.bc.errVal →
      byReset ∨ byCfg ∨ byPush ∨ byFlush) ∧
    (s'.bc.fifo ≠ s.bc.fifo → byReset ∨ byCfg ∨ byPush ∨ byFlush ∨ t = .memRead 0x20) ∧
    (s'.ctl.cmdErr ≠ s.ctl.cmdErr ∨ s'.ctl.cmdCause ≠ s.ctl.cmdCause →
      byReset ∨ txnCommand t = some .clrerr ∨
        (s.ctl.cmdErr = false ∧ s'.ctl.cmdErr = true ∧ ∃ w c, t = .memWrite 0x00 w ∧ decode w = .illegal c)) ∧
    (s'.ctl.ovf ≠ s.ctl.ovf →
      byReset ∨ txnCommand t = some .clrerr ∨
        (s'.ctl.ovf = true ∧ s'.bc = s.bc ∧ (byPush ∨ (byFlush ∧ s.bc.pad = true)))) ∧
    (s'.ctl.accErr ≠ s.ctl.accErr →
      byReset ∨ txnCommand t = some .clrerr ∨
        (s'.ctl.accErr = true ∧ ∃ off, (t = .memRead off ∧ (off.toNat % 4 ≠ 0 ∨ off = 0x3C)) ∨
          (off ≠ 0x00 ∧ ∃ v, t = .memWrite off v)))

/-- R271: `CLRERR` clears the command, access and overflow flags, a legal `BC_CFG` clears the converter's error, `RESET`
clears all; no flag clears itself, and nothing else clears one. -/
def Obligations.NoFlagClearsItself : Prop :=
  (∀ s, ∃ t, perform (.memWrite 0x00 0x0000E000) s = .next t ∧ t.ctl = ⟨false, 0, false, false⟩) ∧
  (∀ f g p s, widthLegal f = true → widthLegal g = true →
    ∃ t, perform (cmdTxn (.bcCfg f g p)) s = .next t ∧ t.bc.bcErr = 0 ∧ t.bc.errIdx = 0 ∧ t.bc.errVal = 0 ∧
      t.bc.cnt = 0 ∧ t.bc.bits = 0 ∧ t.bc.fifo = []) ∧
  (∀ s, ∃ t, perform (.memWrite 0x00 0x0000F000) s = .next t ∧ t.ctl = ⟨false, 0, false, false⟩ ∧ t.bc.bcErr = 0 ∧
    t.bc.errIdx = 0 ∧ t.bc.errVal = 0) ∧
  (∀ t s s', perform t s = .next s' →
    (s.ctl.cmdErr = true ∧ s'.ctl.cmdErr = false) ∨ (s.ctl.ovf = true ∧ s'.ctl.ovf = false) ∨
      (s.ctl.accErr = true ∧ s'.ctl.accErr = false) →
    t = .resetInput ∨ t = .memWrite 0x00 0x0000E000 ∨ t = .memWrite 0x00 0x0000F000) ∧
  (∀ t s s', perform t s = .next s' → s.bc.bcErr ≠ 0 → s'.bc.bcErr = 0 →
    t = .resetInput ∨ t = .memWrite 0x00 0x0000F000 ∨
      ∃ f g p, widthLegal f = true ∧ widthLegal g = true ∧ t = cmdTxn (.bcCfg f g p))

/-- R269: one transaction records at most one error, of the four recording primitives. -/
def Obligations.ATransactionRecordsAtMostOneError : Prop :=
  ∀ t s s', perform t s = .next s' →
    ([decide (s'.ctl.cmdErr = true ∧ s.ctl.cmdErr = false), decide (s'.ctl.accErr = true ∧ s.ctl.accErr = false),
      decide (s'.ctl.ovf = true ∧ s.ctl.ovf = false),
      decide (s'.bc.bcErr ≠ 0 ∧ (s'.bc.bcErr, s'.bc.errIdx, s'.bc.errVal) ≠ (s.bc.bcErr, s.bc.errIdx, s.bc.errVal))].count
        true) ≤ 1

/-- R272: a second illegal word keeps the first cause, a repeated access error or overflow leaves its flag set, a push or
flush in phase ERROR records nothing, and an illegal `BC_CFG` there replaces the error by its own. -/
def Obligations.ErrorsDoNotNestOrQueue : Prop :=
  (∀ w c s, decode w = .illegal c → s.ctl.cmdErr = true → perform (.memWrite 0x00 w) s = .next s) ∧
  (∀ s, s.ctl.accErr = true → accError s = s) ∧ (∀ s, s.ctl.ovf = true → overflow s = s) ∧
  (∀ s, s.bc.bcErr ≠ 0 → (∀ v, exec (.bcPush v) s = .next s) ∧ exec .bcFlush s = .next s) ∧
  (∀ f g p s, s.bc.bcErr ≠ 0 → widthLegal f = false ∨ widthLegal g = false →
    ∃ t, exec (.bcCfg f g p) s = .next t ∧ t.bc.bcErr = 4 ∧ t.bc.errIdx = 0 ∧ t.bc.errVal = cfgByte f g)

/-! ## The host procedures -/

/-- R225: a string with both cases always fails, and an all-upper-case string decodes as its lower-case form. -/
def Obligations.DecodingIgnoresTheCaseOfAOneCaseString : Prop :=
  (∀ str s, str.any isUpper = true → str.any isLower = true → bech32Decode str s = .next (.error .invalidCharacter, s)) ∧
  ∀ str s, str.any isLower = false → bech32Decode (str.map lowerChar) s = bech32Decode str s

/-- R224, R225, R232: encoding a lower-case printable prefix and symbols, within 90 characters, succeeds with
self-verification, and its string decodes to them. -/
def Obligations.EncodedStringsDecode : Prop :=
  ∀ (hrp : List Byte) (data : List Symbol) (s : State), hrp ≠ [] →
    (∀ c ∈ hrp, unprintable c = false ∧ isUpper c = false) → hrp.length + 7 + data.length ≤ 90 →
    ∃ str t, bech32Encode true hrp (ints data) s = .next (.ok str, t) ∧
      str.length = hrp.length + 7 + data.length ∧ ∀ s', ∃ t', bech32Decode str s' = .next (.ok (hrp, data), t')

/-- R232: "Every input that encodes successfully with `SELF_VERIFY` true encodes to the same string with it false." -/
def Obligations.SelfVerificationOnlyRefuses : Prop :=
  (∀ hrp data s str t, bech32Encode true hrp data s = .next (.ok str, t) →
    ∃ t', bech32Encode false hrp data s = .next (.ok str, t')) ∧
  ∀ hrp version program s addr t, segwitEncode true hrp version program s = .next (.ok addr, t) →
    ∃ t', segwitEncode false hrp version program s = .next (.ok addr, t')

/-- R226, R227: a witness version and program of legal lengths, under a lower-case printable prefix and within 90
characters, encode to an address that decodes to them. An `OVF` left set would fail the encoder's test (R226, R301). -/
def Obligations.SegwitAddressesDecode : Prop :=
  ∀ (hrp program : List Byte) (version : Symbol) (s : State), hrp ≠ [] →
    (∀ c ∈ hrp, unprintable c = false ∧ isUpper c = false) → version.toNat ≤ 16 →
    programLengthOk version program.length = true → hrp.length + 8 + (8 * program.length + 4) / 5 ≤ 90 → s.ctl.ovf = false →
    ∃ addr t, segwitEncode true hrp version.toNat program s = .next (.ok addr, t) ∧
      ∀ s', ∃ t', segwitDecode hrp addr s' = .next (.ok (version, program), t')

/-- R221, R224 (log entry 23): encoding fails on the first symbol outside 0..31 before any command. Otherwise it feeds the
prefix in lower case, and its string is the prefix as given, the separator, and the characters of the data and of
`create-checksum` of the lower-case prefix. Self-verification fails on an upper-case prefix beside a letter of the data part,
on a prefix outside 33..126, and on a string of more than 90 characters. -/
def Obligations.EncodingFeedsTheLowerCasePrefix : Prop :=
  (∀ sv hrp (before after : List Int) v s, (∀ x ∈ before, 0 ≤ x ∧ x ≤ 31) → ¬ (0 ≤ v ∧ v ≤ 31) →
    bech32Encode sv hrp (before ++ v :: after) s = .next (.error (.dataOutOfRange before.length v), s)) ∧
  ∀ (hrp : List Byte) (data : List Symbol) (s : State), ∃ ck t,
    createChecksum (hrp.map lowerChar) data s = .next (ck, t) ∧
    nats ck = Ref.createChecksum (nats (hrp.map lowerChar)) (nats data) ∧
    let part := (data ++ ck).map symbolChar
    bech32Encode false hrp (ints data) s = .next (.ok (hrp ++ [0x31] ++ part), t) ∧
    (hrp.any unprintable = true ∨ (hrp.any isUpper = true ∧ part.any isLower = true) →
      bech32Encode true hrp (ints data) s = .next (.error .invalidCharacter, t)) ∧
    (90 < hrp.length + 1 + part.length → ∃ e, bech32Encode true hrp (ints data) s = .next (.error e, t))

end
end

