-- ==== Sys2Proof/Laws/Decode.lean ====
section
/-! SUPPORT. The decoder's answers, one lemma per outcome (spec 30_encoding.md R97), and the register map. -/

namespace Sys2Proof.Laws

open Sys2Proof Sys2Proof.Machine

/-- The formats and the commands are defined on the same opcodes. -/
theorem formatOf_isSome_iff (op : BitVec 4) (w : BitVec 12) : (formatOf op).isSome = (commandOf op w).isSome := by
  have h := op.isLt
  unfold formatOf commandOf
  generalize op.toNat = n at h
  interval_cases n <;> rfl

/-- A non-zero upper half is illegal whatever the low half holds (R96). -/
theorem decode_upper {w : Word} (h : w.extractLsb' 16 16 ≠ 0) : decode w = .illegal .upperBits := if_pos h

/-- A reserved opcode (R94). -/
theorem decode_reserved {w : Word} (h : w.extractLsb' 16 16 = 0) (hf : formatOf (w.extractLsb' 12 4) = none) :
    decode w = .illegal .reservedOpcode := by
  simp [decode, h, hf]

/-- A word that passes all three checks is its command (R97). -/
theorem decode_command {w : Word} {f : Format} {i : Instr} (h : w.extractLsb' 16 16 = 0)
    (hf : formatOf (w.extractLsb' 12 4) = some f) (hc : commandOf (w.extractLsb' 12 4) (w.extractLsb' 0 12) = some i)
    (hr : w.extractLsb' 0 12 &&& reservedBits f = 0) : decode w = .command i := by
  simp [decode, h, hf, hc, hr]

/-- Every register's offset is aligned and selects it (R45). -/
@[simp] theorem regAt_regOffset (r : Reg) : regAt (regOffset r) = some r := by
  cases r with
  | cksym p => revert p; decide
  | _ => rfl

/-- Every register's offset is aligned (R45). -/
@[simp] theorem misaligned_regOffset (r : Reg) : misaligned (regOffset r) = false := by
  cases r with
  | cksym p => revert p; decide
  | _ => rfl

/-- A read of a register by name. -/
theorem busRead_regOffset (r : Reg) (s : State) :
    busRead (regOffset r) s = (regValue r s, logRead (regValue r s) (if r = .bcOut then popFifo s else s)) := by
  simp [busRead, readReg]

/-- A write to `CMD` is decoded and performed (R67). -/
@[simp] theorem busWrite_cmd (v : Word) (s : State) : busWrite (regOffset .cmd) v s = writeCmd v s := by
  simp [busWrite]

/-- A write of a legal word performs its command (R97). -/
theorem writeCmd_command {w : Word} {i : Instr} (h : decode w = .command i) (s : State) : writeCmd w s = exec i s := by
  simp [writeCmd, h]

/-- A write of an illegal word records its cause (R94 to R96). -/
theorem writeCmd_illegal {w : Word} {c : IllegalCause} (h : decode w = .illegal c) (s : State) :
    writeCmd w s = .next (cmdIllegal c s) := by
  simp [writeCmd, h]

end Sys2Proof.Laws
end

