-- ==== Sys2Proof/Laws/State.lean ====
section
/-! SUPPORT. What each partition update leaves in each field of the state. -/

namespace Sys2Proof.Laws

open Sys2Proof Sys2Proof.Machine

variable (s : State) (p : PmUnit) (b : BcUnit) (c : Control) (v : Word)

@[simp] theorem setPm_pm : (setPm p s).pm = p := rfl
@[simp] theorem setPm_bc : (setPm p s).bc = s.bc := rfl
@[simp] theorem setPm_ctl : (setPm p s).ctl = s.ctl := rfl
@[simp] theorem setPm_pending : (setPm p s).pending = s.pending := rfl
@[simp] theorem setPm_reads : (setPm p s).reads = s.reads := rfl

@[simp] theorem setBc_pm : (setBc b s).pm = s.pm := rfl
@[simp] theorem setBc_bc : (setBc b s).bc = b := rfl
@[simp] theorem setBc_ctl : (setBc b s).ctl = s.ctl := rfl
@[simp] theorem setBc_pending : (setBc b s).pending = s.pending := rfl
@[simp] theorem setBc_reads : (setBc b s).reads = s.reads := rfl

@[simp] theorem setCtl_pm : (setCtl c s).pm = s.pm := rfl
@[simp] theorem setCtl_bc : (setCtl c s).bc = s.bc := rfl
@[simp] theorem setCtl_ctl : (setCtl c s).ctl = c := rfl
@[simp] theorem setCtl_pending : (setCtl c s).pending = s.pending := rfl
@[simp] theorem setCtl_reads : (setCtl c s).reads = s.reads := rfl

@[simp] theorem logRead_pm : (logRead v s).pm = s.pm := rfl
@[simp] theorem logRead_bc : (logRead v s).bc = s.bc := rfl
@[simp] theorem logRead_ctl : (logRead v s).ctl = s.ctl := rfl
@[simp] theorem logRead_pending : (logRead v s).pending = s.pending := rfl
@[simp] theorem logRead_reads : (logRead v s).reads = s.reads ++ [v] := rfl

/-- A state is its five fields. -/
theorem state_ext {s t : State} (hp : s.pm = t.pm) (hb : s.bc = t.bc) (hc : s.ctl = t.ctl) (hq : s.pending = t.pending)
    (hr : s.reads = t.reads) : s = t := by
  cases s; cases t; simp_all

end Sys2Proof.Laws
end

