-- ==== Sys2Proof/Laws/Ops.lean ====
section
/-! SUPPORT. What the shared operations do, field by field: the feed of a symbol, the error primitives, the clearing of
the flags, the reset, the pop; and the two loops in closed form. -/

namespace Sys2Proof.Laws

open Sys2Proof Sys2Proof.Machine

variable (s : State) (x : Symbol) (k : IllegalCause) (code : BitVec 3) (idx val : Nat)

@[simp] theorem feedSymbol_pm : (feedSymbol x s).pm = { s.pm with chk := pmstep s.pm.chk x } := rfl
@[simp] theorem feedSymbol_bc : (feedSymbol x s).bc = s.bc := rfl
@[simp] theorem feedSymbol_ctl : (feedSymbol x s).ctl = s.ctl := rfl
@[simp] theorem feedSymbol_pending : (feedSymbol x s).pending = s.pending := rfl
@[simp] theorem feedSymbol_reads : (feedSymbol x s).reads = s.reads := rfl

@[simp] theorem cmdIllegal_pm : (cmdIllegal k s).pm = s.pm := rfl
@[simp] theorem cmdIllegal_bc : (cmdIllegal k s).bc = s.bc := rfl
@[simp] theorem cmdIllegal_pending : (cmdIllegal k s).pending = s.pending := rfl
@[simp] theorem cmdIllegal_reads : (cmdIllegal k s).reads = s.reads := rfl
@[simp] theorem cmdIllegal_cmdErr : (cmdIllegal k s).ctl.cmdErr = true := rfl
@[simp] theorem cmdIllegal_cmdCause :
    (cmdIllegal k s).ctl.cmdCause = if s.ctl.cmdErr then s.ctl.cmdCause else causeCode k := rfl
@[simp] theorem cmdIllegal_ovf : (cmdIllegal k s).ctl.ovf = s.ctl.ovf := rfl
@[simp] theorem cmdIllegal_accErr : (cmdIllegal k s).ctl.accErr = s.ctl.accErr := rfl

@[simp] theorem accError_pm : (accError s).pm = s.pm := rfl
@[simp] theorem accError_bc : (accError s).bc = s.bc := rfl
@[simp] theorem accError_ctl : (accError s).ctl = { s.ctl with accErr := true } := rfl
@[simp] theorem accError_pending : (accError s).pending = s.pending := rfl
@[simp] theorem accError_reads : (accError s).reads = s.reads := rfl

@[simp] theorem overflow_pm : (overflow s).pm = s.pm := rfl
@[simp] theorem overflow_bc : (overflow s).bc = s.bc := rfl
@[simp] theorem overflow_ctl : (overflow s).ctl = { s.ctl with ovf := true } := rfl
@[simp] theorem overflow_pending : (overflow s).pending = s.pending := rfl
@[simp] theorem overflow_reads : (overflow s).reads = s.reads := rfl

@[simp] theorem bcError_pm : (bcError code idx val s).pm = s.pm := rfl
@[simp] theorem bcError_bc : (bcError code idx val s).bc =
    { s.bc with bcErr := code, errIdx := BitVec.ofNat 16 idx, errVal := BitVec.ofNat 8 val, fifo := [] } := rfl
@[simp] theorem bcError_ctl : (bcError code idx val s).ctl = s.ctl := rfl
@[simp] theorem bcError_pending : (bcError code idx val s).pending = s.pending := rfl
@[simp] theorem bcError_reads : (bcError code idx val s).reads = s.reads := rfl

@[simp] theorem clearSticky_pm : (clearSticky s).pm = s.pm := rfl
@[simp] theorem clearSticky_bc : (clearSticky s).bc = s.bc := rfl
@[simp] theorem clearSticky_ctl : (clearSticky s).ctl = Control.reset := rfl
@[simp] theorem clearSticky_pending : (clearSticky s).pending = s.pending := rfl
@[simp] theorem clearSticky_reads : (clearSticky s).reads = s.reads := rfl

@[simp] theorem resetBlock_pm : (resetBlock s).pm = PmUnit.reset := rfl
@[simp] theorem resetBlock_bc : (resetBlock s).bc = BcUnit.reset := rfl
@[simp] theorem resetBlock_ctl : (resetBlock s).ctl = Control.reset := rfl
@[simp] theorem resetBlock_pending : (resetBlock s).pending = s.pending := rfl
@[simp] theorem resetBlock_reads : (resetBlock s).reads = s.reads := rfl

@[simp] theorem popFifo_pm : (popFifo s).pm = s.pm := rfl
@[simp] theorem popFifo_bc : (popFifo s).bc = { s.bc with fifo := s.bc.fifo.tail } := rfl
@[simp] theorem popFifo_ctl : (popFifo s).ctl = s.ctl := rfl
@[simp] theorem popFifo_pending : (popFifo s).pending = s.pending := rfl
@[simp] theorem popFifo_reads : (popFifo s).reads = s.reads := rfl

/-- Popping an empty `FIFO` changes nothing (R164). -/
theorem popFifo_of_empty (h : s.bc.fifo = []) : popFifo s = s := by
  cases s with
  | mk pm bc ctl pending reads => cases bc; simp_all [popFifo, setBc]

/-- The emission loop emits one group each turn. -/
@[simp] theorem emitGroups_length (a t n b : Nat) : (emitGroups a t n b).1.length = n := by
  induction n generalizing b with
  | zero => rfl
  | succ n ih => simp [emitGroups, ih]

/-- The emission loop takes `t` off the count each turn. -/
@[simp] theorem emitGroups_bits (a t n b : Nat) : (emitGroups a t n b).2 = b - n * t := by
  induction n generalizing b with
  | zero => simp [emitGroups]
  | succ n ih => simp only [emitGroups, ih, Nat.succ_mul]; omega

/-- `mask(n)` keeps the low `n` bits. -/
theorem and_mask (x n : Nat) : x &&& mask n = x % 2 ^ n := Nat.and_two_pow_sub_one_eq_mod x n

/-- Each emitted group is below `2^t`. -/
theorem emitGroups_below (a t n b : Nat) (e : Byte) (h : e ∈ (emitGroups a t n b).1) : e.toNat < 2 ^ t := by
  induction n generalizing b with
  | zero => simp [emitGroups] at h
  | succ n ih =>
    simp only [emitGroups, List.mem_cons] at h
    rcases h with rfl | h
    · rw [and_mask, BitVec.toNat_ofNat]
      exact lt_of_le_of_lt (Nat.mod_le _ _) (Nat.mod_lt _ (by positivity))
    · exact ih _ h

/-- The groups in emission order are the `t`-bit groups of `a` from the top (R162, R70). -/
theorem emitGroups_groups (a t n b : Nat) :
    (emitGroups a t n b).1 = (List.range n).map fun k => BitVec.ofNat 8 (a / 2 ^ (b - (k + 1) * t) % 2 ^ t) := by
  induction n generalizing b with
  | zero => rfl
  | succ n ih =>
    rw [List.range_succ_eq_map, List.map_cons, List.map_map, emitGroups, ih]
    simp only [and_mask, Nat.shiftRight_eq_div_pow, Nat.zero_add, Nat.one_mul, List.cons.injEq, true_and]
    refine List.map_congr_left fun k _ => ?_
    have : b - t - (k + 1) * t = b - (k + 1 + 1) * t := by rw [Nat.succ_mul (k + 1)]; omega
    simp [this]

/-- Zero steps compose. -/
theorem zeroSteps_add (m n : Nat) (c : Chk) : zeroSteps (m + n) c = zeroSteps n (zeroSteps m c) := by
  induction m generalizing c with
  | zero => simp [zeroSteps]
  | succ m ih => rw [Nat.succ_add]; exact ih (pmstep c 0)

end Sys2Proof.Laws
end

