-- ==== Sys2Proof/Laws/Bus.lean ====
section
/-! SUPPORT. What a transaction can do, by cases, and how transactions compose (spec 20_memory.md R62 to R68, R71). -/

namespace Sys2Proof.Laws

open Sys2Proof Sys2Proof.Machine

/-- A write at offset 0 is a command word (R67). -/
theorem perform_write_zero (w : Word) (s : State) : perform (.memWrite 0x00 w) s = writeCmd w s := busWrite_cmd w s

/-- Everything a read can do (R62, R63, R66). -/
theorem busRead_cases (off : Offset) (s : State) :
    (busRead off s = (0, logRead 0 (accError s))) ∨
    ∃ r, misaligned off = false ∧ regAt off = some r ∧
      busRead off s = (regValue r s, logRead (regValue r s) (if r = .bcOut then popFifo s else s)) := by
  unfold busRead
  split
  · exact .inl rfl
  split
  · exact .inl rfl
  · exact .inr ⟨_, by simp_all, by assumption, rfl⟩

/-- Everything a write can do (R62 to R64, R67). -/
theorem busWrite_cases (off : Offset) (v : Word) (s : State) :
    busWrite off v s = .next (accError s) ∨ busWrite off v s = writeCmd v s := by
  unfold busWrite
  split
  · exact .inl rfl
  split
  · exact .inl rfl
  · exact .inr rfl
  · exact .inl rfl

/-- Everything a command word can do (R97). -/
theorem writeCmd_cases (w : Word) (s : State) :
    (∃ i, decode w = .command i ∧ writeCmd w s = exec i s) ∨
    ∃ c, decode w = .illegal c ∧ writeCmd w s = .next (cmdIllegal c s) := by
  rcases h : decode w with i | c
  · exact .inl ⟨i, rfl, writeCmd_command h s⟩
  · exact .inr ⟨c, rfl, writeCmd_illegal h s⟩

@[simp] theorem performAll_nil (s : State) : performAll [] s = .next s := rfl

/-- The first transaction, then the rest (R71). -/
theorem performAll_cons {t : Txn} {s s1 : State} (h : perform t s = .next s1) (ts : List Txn) :
    performAll (t :: ts) s = performAll ts s1 := by
  simp [performAll, h]

/-- One list of transactions after another (R71). -/
theorem performAll_append {ts : List Txn} {s s1 : State} (h : performAll ts s = .next s1) (us : List Txn) :
    performAll (ts ++ us) s = performAll us s1 := by
  induction ts generalizing s with
  | nil => cases h; rfl
  | cons t ts ih =>
    rcases hp : perform t s with s' | f | r
    · rw [performAll_cons hp] at h
      rw [List.cons_append, performAll_cons hp, ih h]
    all_goals simp [performAll, hp] at h

/-- A read of `BC_OUT` with an entry queued (R164). -/
theorem hostRead_out_cons {s : State} {e : Byte} {q : List Byte} (h : s.bc.fifo = e :: q) :
    hostRead .bcOut s = (0x100 ||| e.setWidth 32, logRead (0x100 ||| e.setWidth 32) (popFifo s)) := by
  simp [hostRead, busRead_regOffset, regValue, outWord, h]

/-- A read of `BC_OUT` with nothing queued (R164). -/
theorem hostRead_out_nil {s : State} (h : s.bc.fifo = []) : hostRead .bcOut s = (0, logRead 0 s) := by
  simp [hostRead, busRead_regOffset, regValue, outWord, h, popFifo_of_empty s h]

/-- `VALID` and `DATA` of a queued entry (R53). -/
theorem outEntry_fields (e : Byte) :
    (0x100 ||| e.setWidth 32 : Word).getLsbD 8 = true ∧ (0x100 ||| e.setWidth 32 : Word).extractLsb' 0 8 = e := by
  revert e
  decide +kernel

/-- Draining takes the whole queue, oldest first, and leaves the rest of the block as it was (R164, R295). -/
theorem drain_spec (s : State) :
    (drain s).1 = s.bc.fifo ∧ (drain s).2.bc = { s.bc with fifo := [] } ∧ (drain s).2.pm = s.pm ∧
      (drain s).2.ctl = s.ctl ∧ (drain s).2.pending = s.pending := by
  have key : ∀ (q : List Byte) (s : State), s.bc.fifo = q →
      (drainUpTo (q.length + 1) s).1 = q ∧ (drainUpTo (q.length + 1) s).2.bc = { s.bc with fifo := [] } ∧
        (drainUpTo (q.length + 1) s).2.pm = s.pm ∧ (drainUpTo (q.length + 1) s).2.ctl = s.ctl ∧
        (drainUpTo (q.length + 1) s).2.pending = s.pending := by
    intro q
    induction q with
    | nil =>
      intro s h
      have h0 : (0 : Word).getLsbD 8 = false := rfl
      simp only [List.length_nil, drainUpTo, hostRead_out_nil h, h0]
      refine ⟨rfl, ?_, rfl, rfl, rfl⟩
      show s.bc = _
      rw [← h]
    | cons e q ih =>
      intro s h
      obtain ⟨hv, hd⟩ := outEntry_fields e
      have hp : (logRead (0x100 ||| e.setWidth 32) (popFifo s)).bc.fifo = q := by simp [h]
      have hr := ih _ hp
      rw [List.length_cons, drainUpTo, hostRead_out_cons h]
      simp only [hv, hd, if_true]
      exact ⟨by rw [hr.1], by rw [hr.2.1]; rfl, by rw [hr.2.2.1]; rfl, by rw [hr.2.2.2.1]; rfl, by rw [hr.2.2.2.2]; rfl⟩
  exact key _ s rfl

end Sys2Proof.Laws
end

