-- ==== Sys2Proof/Laws/Checksum.lean ====
section
/-! SUPPORT. The polymod step (spec 40_checksum.md R121) is a shift, the new symbol, and a feedback that depends on the
top five bits alone; it is linear over exclusive-or, and with the symbol 0 only 0 goes to 0. -/

namespace Sys2Proof.Laws

open Sys2Proof Sys2Proof.Machine

/-- The generators that a top value selects, summed. -/
def feedback (top : BitVec 5) : Chk := [0, 1, 2, 3, 4].foldl (foldGen top) 0

theorem foldGen_xor (top : BitVec 5) (r q : Chk) (i : Nat) : foldGen top (r ^^^ q) i = r ^^^ foldGen top q i := by
  unfold foldGen
  split
  · rw [BitVec.xor_assoc]
  · rfl

theorem foldl_foldGen (top : BitVec 5) (l : List Nat) (r q : Chk) :
    l.foldl (foldGen top) (r ^^^ q) = r ^^^ l.foldl (foldGen top) q := by
  induction l generalizing q with
  | nil => rfl
  | cons i l ih => rw [List.foldl_cons, List.foldl_cons, foldGen_xor, ih]

/-- "OR in" and "XOR in" are the same (R121). -/
theorem shiftIn_eq (c : Chk) (x : Symbol) : (c &&& 0x1FFFFFF) <<< 5 ||| x.setWidth 30 = c <<< 5 ^^^ x.setWidth 30 := by
  have h : (0x1FFFFFF : Chk) = BitVec.allOnes 30 >>> 5 := by decide
  rw [h]
  ext i hi
  simp only [BitVec.getElem_or, BitVec.getElem_xor, BitVec.getElem_shiftLeft, BitVec.getElem_setWidth,
    BitVec.getElem_and, BitVec.getElem_ushiftRight]
  by_cases hx : i < 5
  · simp [hx]
  · rw [BitVec.getLsbD_of_ge x i (by omega)]
    simp only [hx, decide_false, Bool.not_false, Bool.true_and, Bool.or_false, Bool.xor_false, BitVec.getLsbD_allOnes]
    rw [decide_eq_true (by omega), Bool.and_true]

/-- The step in three parts. -/
theorem pmstep_eq (c : Chk) (x : Symbol) :
    pmstep c x = c <<< 5 ^^^ x.setWidth 30 ^^^ feedback (c.extractLsb' 25 5) := by
  have h := foldl_foldGen (c.extractLsb' 25 5) [0, 1, 2, 3, 4] ((c &&& 0x1FFFFFF) <<< 5 ||| x.setWidth 30) 0
  have h0 : ((c &&& 0x1FFFFFF) <<< 5 ||| x.setWidth 30) ^^^ (0 : Chk) = (c &&& 0x1FFFFFF) <<< 5 ||| x.setWidth 30 := by simp
  rw [h0] at h
  rw [← shiftIn_eq]
  exact h

theorem feedback_xor (a b : BitVec 5) : feedback (a ^^^ b) = feedback a ^^^ feedback b := by
  revert a b
  decide +kernel

theorem xor_interchange (a b c d : Chk) : (a ^^^ b) ^^^ (c ^^^ d) = (a ^^^ c) ^^^ (b ^^^ d) := by
  rw [BitVec.xor_assoc, BitVec.xor_assoc, ← BitVec.xor_assoc b, BitVec.xor_comm b c, BitVec.xor_assoc]

/-- The step is linear. -/
theorem pmstep_xor (c d : Chk) (x y : Symbol) : pmstep (c ^^^ d) (x ^^^ y) = pmstep c x ^^^ pmstep d y := by
  have he : (c ^^^ d).extractLsb' 25 5 = c.extractLsb' 25 5 ^^^ d.extractLsb' 25 5 := by
    ext i
    simp
  have hs : (c ^^^ d) <<< 5 = c <<< 5 ^^^ d <<< 5 := BitVec.shiftLeft_xor_distrib ..
  have hw : (x ^^^ y).setWidth 30 = x.setWidth 30 ^^^ y.setWidth 30 := BitVec.setWidth_xor
  rw [pmstep_eq, pmstep_eq, pmstep_eq, he, hs, hw, feedback_xor]
  rw [xor_interchange (c <<< 5), xor_interchange (c <<< 5 ^^^ _)]

/-- The low five bits of a feedback tell which generators made it. -/
theorem feedback_low (a : BitVec 5) (h : (feedback a).setWidth 5 = 0#5) : a = 0 := by
  revert a
  decide +kernel

/-- Only 0 is sent to 0 by a zero symbol (R124: "0 is a fixed point of the zero symbol"). -/
theorem pmstep_zero_inj (c : Chk) (h : pmstep c 0 = 0) : c = 0 := by
  rw [pmstep_eq] at h
  have hl : (feedback (c.extractLsb' 25 5)).setWidth 5 = 0#5 := by
    have h5 := congrArg (BitVec.setWidth 5) h
    rw [BitVec.setWidth_xor, BitVec.setWidth_xor] at h5
    have e : (c <<< 5).setWidth 5 = 0#5 := by
      ext i
      simp
    rw [e] at h5
    simpa using h5
  have ht := feedback_low _ hl
  rw [ht] at h
  have hf : feedback 0 = 0 := by decide
  rw [hf] at h
  have h : c <<< 5 = 0 := by simpa using h
  ext i hi
  have h1 := congrArg (fun v : BitVec 5 => v.getLsbD (i - 25)) ht
  have h2 := congrArg (fun v : Chk => v.getLsbD (i + 5)) h
  simp [BitVec.getLsbD_extractLsb'] at h1 h2
  by_cases hh : i < 25
  · simpa [BitVec.getLsbD_eq_getElem hi] using h2 (by omega)
  · rw [show 25 + (i - 25) = i by omega] at h1
    simpa [BitVec.getLsbD_eq_getElem hi] using h1 (by omega)

end Sys2Proof.Laws
end

