-- ==== Sys2Proof/Laws/Convert.lean ====
section
/-! SUPPORT. The BC unit's commands by cases (spec 41_convert.md R161 to R163): what each answers, and its arithmetic on
numbers. -/

namespace Sys2Proof.Laws

open Sys2Proof Sys2Proof.Machine

/-- The range test says `V >= 2^FROM` (R162). -/
theorem outOfRange_iff (v : Byte) (b : BcUnit) : outOfRange v b = true ↔ 2 ^ b.fromBits.toNat ≤ v.toNat := by
  unfold outOfRange
  rw [Nat.shiftRight_eq_div_pow, bne_iff_ne, Ne, Nat.div_eq_zero_iff]
  have : 0 < 2 ^ b.fromBits.toNat := by positivity
  omega

/-- The space test says the groups do not fit (R162), when the queue is no longer than its depth. -/
theorem pushNoSpace_iff (b : BcUnit) (h : b.fifo.length ≤ 8) :
    pushNoSpace b = true ↔ 8 < b.fifo.length + (b.bits.toNat + b.fromBits.toNat) / b.toBits.toNat := by
  unfold pushNoSpace pushGroups Config.fifoDepth
  simp only [gt_iff_lt, decide_eq_true_iff]
  omega

/-- Appending an in-range value below the residue is an addition. -/
theorem append_value (v : Byte) (b : BcUnit) (h : outOfRange v b = false) :
    b.acc.toNat <<< b.fromBits.toNat ||| v.toNat = b.acc.toNat * 2 ^ b.fromBits.toNat + v.toNat := by
  have hv : ¬ 2 ^ b.fromBits.toNat ≤ v.toNat := by rw [← outOfRange_iff, h]; decide
  rw [← Nat.shiftLeft_add_eq_or_of_lt (by omega), Nat.shiftLeft_eq]

/-- The bits left after the completed groups. -/
theorem left_bits (b : BcUnit) :
    b.bits.toNat + b.fromBits.toNat - pushGroups b * b.toBits.toNat =
      (b.bits.toNat + b.fromBits.toNat) % b.toBits.toNat := by
  rw [Nat.mod_eq_sub_div_mul]
  rfl

/-- `BITS` after an accepted push (R162), for a legal `TO`. -/
theorem appended_bits (v : Byte) (b : BcUnit) (h : 1 ≤ b.toBits.toNat ∧ b.toBits.toNat ≤ 8) :
    (appended v b).bits.toNat = (b.bits.toNat + b.fromBits.toNat) % b.toBits.toNat := by
  have hlt := Nat.mod_lt (b.bits.toNat + b.fromBits.toNat) (show b.toBits.toNat > 0 by omega)
  simp only [appended, emitGroups_bits, left_bits, BitVec.toNat_ofNat]
  exact Nat.mod_eq_of_lt (by omega)

/-- The queue after an accepted push (R162): as many new entries as groups completed. -/
theorem appended_fifo_length (v : Byte) (b : BcUnit) :
    (appended v b).fifo.length = b.fifo.length + (b.bits.toNat + b.fromBits.toNat) / b.toBits.toNat := by
  simp [appended, pushGroups]

@[simp] theorem appended_fromBits (v : Byte) (b : BcUnit) : (appended v b).fromBits = b.fromBits := rfl
@[simp] theorem appended_toBits (v : Byte) (b : BcUnit) : (appended v b).toBits = b.toBits := rfl
@[simp] theorem appended_pad (v : Byte) (b : BcUnit) : (appended v b).pad = b.pad := rfl
@[simp] theorem appended_cnt (v : Byte) (b : BcUnit) : (appended v b).cnt = b.cnt + 1 := rfl
@[simp] theorem appended_bcErr (v : Byte) (b : BcUnit) : (appended v b).bcErr = b.bcErr := rfl
@[simp] theorem appended_errIdx (v : Byte) (b : BcUnit) : (appended v b).errIdx = b.errIdx := rfl
@[simp] theorem appended_errVal (v : Byte) (b : BcUnit) : (appended v b).errVal = b.errVal := rfl

/-- Everything a `BC_PUSH` can do (R162, R270). -/
theorem execBcPush_cases (v : Byte) (s t : State) (h : execBcPush v s = .next t) :
    (s.bc.bcErr ≠ 0 ∧ t = s) ∨
    (s.bc.bcErr = 0 ∧ outOfRange v s.bc = true ∧ t = bcError errDataOutOfRange s.bc.cnt.toNat v.toNat s) ∨
    (s.bc.bcErr = 0 ∧ outOfRange v s.bc = false ∧ pushNoSpace s.bc = true ∧ t = overflow s) ∨
    (s.bc.bcErr = 0 ∧ outOfRange v s.bc = false ∧ pushNoSpace s.bc = false ∧ t = setBc (appended v s.bc) s) := by
  unfold execBcPush at h
  split at h
  · cases h; exact .inl ⟨‹_›, rfl⟩
  have h0 : s.bc.bcErr = 0 := not_not.1 ‹_›
  split at h
  · cases h; exact .inr (.inl ⟨h0, ‹_›, rfl⟩)
  split at h
  · cases h; exact .inr (.inr (.inl ⟨h0, by simp_all, ‹_›, rfl⟩))
  · cases h; exact .inr (.inr (.inr ⟨h0, by simp_all, by simp_all, rfl⟩))

/-- Everything a `BC_FLUSH` can do (R163, R270). -/
theorem execBcFlush_cases (s t : State) (h : execBcFlush s = .next t) :
    (s.bc.bcErr ≠ 0 ∧ t = s) ∨ (s.bc.bcErr = 0 ∧ s.bc.pad = true ∧ t = flushPadded s) ∨
    (s.bc.bcErr = 0 ∧ s.bc.pad = false ∧ t = flushStrict s) := by
  unfold execBcFlush at h
  split at h
  · cases h; exact .inl ⟨‹_›, rfl⟩
  have h0 : s.bc.bcErr = 0 := not_not.1 ‹_›
  split at h
  · cases h; exact .inr (.inl ⟨h0, ‹_›, rfl⟩)
  · cases h; exact .inr (.inr ⟨h0, by simp_all, rfl⟩)

/-- The padded completion by cases (R163). -/
theorem flushPadded_cases (s : State) :
    (0 < s.bc.bits.toNat ∧ s.bc.fifo.length = 8 ∧ flushPadded s = overflow s) ∨
    (0 < s.bc.bits.toNat ∧ s.bc.fifo.length ≠ 8 ∧
      flushPadded s = setBc (startConversion { s.bc with fifo := s.bc.fifo ++ [paddedGroup s.bc] }) s) ∨
    (s.bc.bits.toNat = 0 ∧ flushPadded s = setBc (startConversion s.bc) s) := by
  unfold flushPadded Config.fifoDepth
  split
  · split
    · exact .inl ⟨‹_›, ‹_›, rfl⟩
    · exact .inr (.inl ⟨‹_›, ‹_›, rfl⟩)
  · exact .inr (.inr ⟨by omega, rfl⟩)

/-- The strict completion by cases (R163). -/
theorem flushStrict_cases (s : State) :
    (s.bc.fromBits.toNat ≤ s.bc.bits.toNat ∧
      flushStrict s = bcError errIllegalPadding s.bc.cnt.toNat s.bc.acc.toNat s) ∨
    (s.bc.bits.toNat < s.bc.fromBits.toNat ∧ s.bc.acc ≠ 0 ∧
      flushStrict s = bcError errNonZeroPadding s.bc.cnt.toNat s.bc.acc.toNat s) ∨
    (s.bc.bits.toNat < s.bc.fromBits.toNat ∧ s.bc.acc = 0 ∧ flushStrict s = setBc (startConversion s.bc) s) := by
  unfold flushStrict
  split
  · exact .inl ⟨‹_›, rfl⟩
  have hb : s.bc.bits.toNat < s.bc.fromBits.toNat := by omega
  split
  · exact .inr (.inl ⟨hb, ‹_›, rfl⟩)
  · exact .inr (.inr ⟨hb, not_not.1 ‹_›, rfl⟩)

/-- The width test on numbers (R35, R161). -/
theorem widthLegal_iff (w : BitVec 4) : widthLegal w = true ↔ 1 ≤ w.toNat ∧ w.toNat ≤ 8 := by
  unfold widthLegal
  rw [Bool.and_eq_true, decide_eq_true_iff, decide_eq_true_iff]
  rfl

/-- Everything a `BC_CFG` can do (R161). -/
theorem execBcCfg_cases (f g : BitVec 4) (p : Bool) (s t : State) (h : execBcCfg f g p s = .next t) :
    (widthLegal f = true ∧ widthLegal g = true ∧ t = setBc (configured f g p) s) ∨
    ((widthLegal f = false ∨ widthLegal g = false) ∧ t = bcError errBadConfig 0 (cfgByte f g).toNat s) := by
  unfold execBcCfg at h
  split at h
  · cases h
    simp_all
  · cases h
    refine .inr ⟨?_, rfl⟩
    rcases hf : widthLegal f with _ | _
    · exact .inl rfl
    · exact .inr (by simp_all)

/-- The padded group's value (R163) when the residue is below `2^BITS` and `BITS < TO`. -/
theorem paddedGroup_toNat (b : BcUnit) (hb : b.bits.toNat < b.toBits.toNat) (ht : b.toBits.toNat ≤ 8)
    (ha : b.acc.toNat < 2 ^ b.bits.toNat) :
    (paddedGroup b).toNat = b.acc.toNat * 2 ^ (b.toBits.toNat - b.bits.toNat) := by
  have hlt : b.acc.toNat * 2 ^ (b.toBits.toNat - b.bits.toNat) < 2 ^ b.toBits.toNat := by
    calc _ < 2 ^ b.bits.toNat * 2 ^ (b.toBits.toNat - b.bits.toNat) :=
          Nat.mul_lt_mul_of_pos_right ha (by positivity)
      _ = _ := by rw [← pow_add]; congr 1; omega
  have h8 : 2 ^ b.toBits.toNat ≤ 2 ^ 8 := Nat.pow_le_pow_right (by norm_num) ht
  simp only [paddedGroup, and_mask, Nat.shiftLeft_eq, BitVec.toNat_ofNat]
  rw [Nat.mod_eq_of_lt hlt, Nat.mod_eq_of_lt (lt_of_lt_of_le hlt h8)]

end Sys2Proof.Laws
end

