-- ==== Sys2Proof/Laws/HostProcedures.lean ====
section
/-! SUPPORT. The host procedures' small steps (spec 46_host_procedures.md): the case of a character, the range check of
encoding, and encoding as its parts. -/

namespace Sys2Proof.Laws

open Sys2Proof Sys2Proof.Machine

/-- Lower-casing keeps a character that is not upper-case (R221). -/
theorem lowerChar_of_not_upper {c : Byte} (h : isUpper c = false) : lowerChar c = c := by simp [lowerChar, h]

/-- A lower-case prefix is its own lower-case form (R221). -/
theorem map_lowerChar_of_lower {h : List Byte} (hl : ∀ c ∈ h, isUpper c = false) : h.map lowerChar = h :=
  (List.map_congr_left fun c hc => lowerChar_of_not_upper (hl c hc)).trans (List.map_id' h)

/-- A symbol is in range (R224 step 1). -/
theorem firstOutside_ints (data : List Symbol) (i : Nat) : firstOutside i (ints data) = none := by
  induction data generalizing i with
  | nil => rfl
  | cons x xs ih =>
    have hx := x.isLt
    show (if 0 ≤ (x.toNat : Int) ∧ (x.toNat : Int) ≤ 31 then firstOutside (i + 1) (ints xs) else some (i, (x.toNat : Int))) = none
    rw [if_pos (by omega), ih]

/-- The first value out of range is found at its index (R224 step 1). -/
theorem firstOutside_append (before after : List Int) (v : Int) (i : Nat) (hb : ∀ x ∈ before, 0 ≤ x ∧ x ≤ 31)
    (hv : ¬ (0 ≤ v ∧ v ≤ 31)) : firstOutside i (before ++ v :: after) = some (i + before.length, v) := by
  induction before generalizing i with
  | nil => simp only [List.nil_append, firstOutside, if_neg hv, List.length_nil, Nat.add_zero]
  | cons x xs ih =>
    rw [List.cons_append, firstOutside, if_pos (hb x (by simp)), ih _ fun y hy => hb y (by simp [hy])]
    simp only [List.length_cons]
    congr 2
    omega

/-- Symbols survive the way through the source's integers. -/
theorem symbols_ints (data : List Symbol) : (ints data).map (fun v => BitVec.ofNat 5 v.toNat) = data := by
  unfold ints
  rw [List.map_map]
  exact (List.map_congr_left fun x _ => by simp).trans (List.map_id' data)

/-- Encoding without self-verification is the string of the created checksum (R221, R224). -/
theorem bech32Encode_unverified {hrp : List Byte} {data ck : List Symbol} {s t : State}
    (h : createChecksum (hrp.map lowerChar) data s = .next (ck, t)) :
    bech32Encode false hrp (ints data) s = .next (.ok (renderString hrp (data ++ ck)), t) := by
  simp [bech32Encode, firstOutside_ints, symbols_ints, h, andThen]

/-- Encoding with self-verification decodes that string and takes over its failure (R224 step 4). -/
theorem bech32Encode_verified {hrp : List Byte} {data ck : List Symbol} {s t : State}
    (h : createChecksum (hrp.map lowerChar) data s = .next (ck, t)) :
    bech32Encode true hrp (ints data) s = andThen (bech32Decode (renderString hrp (data ++ ck)) t) fun d =>
      match d.1 with
      | .ok _ => .next (.ok (renderString hrp (data ++ ck)), d.2)
      | .error e => .next (.error e, d.2) := by
  simp only [bech32Encode, firstOutside_ints, symbols_ints, h]
  rfl

/-- A string that fails before the checksum fails without a command (R225 steps 1 to 5). -/
theorem bech32Decode_error {str : List Byte} {e : HostError} (h : splitString str = .error e) (s : State) :
    bech32Decode str s = .next (.error e, s) := by
  simp [bech32Decode, h]

end Sys2Proof.Laws
end

