-- ==== Sys2Proof/Laws/PerInstr.lean ====
section
/-! SUPPORT. Per instruction: the family EncodesToItsRow says that a command's word lies in its row of the opcode map
(spec 30_encoding.md R93), whatever its operands. -/

namespace Sys2Proof.Laws

open Sys2Proof

/-- The row of `opcodeTable` with the command's mnemonic selects the command's word. -/
def EncodesToItsRow.Statement (i : Instr) : Prop :=
  ∃ r ∈ opcodeTable, r.mnemonic = mnemonicOf i ∧ r.selects (encode i) = true

theorem EncodesToItsRow.nop : EncodesToItsRow.Statement .nop :=
  ⟨⟨"NOP", 0x00000000, 0xFFFFFFFF⟩, by simp [opcodeTable], rfl, by decide⟩

theorem EncodesToItsRow.pmInit : EncodesToItsRow.Statement .pmInit :=
  ⟨⟨"PM_INIT", 0x00001000, 0xFFFFFFFF⟩, by simp [opcodeTable], rfl, by decide⟩

theorem EncodesToItsRow.pmSym (sym : Symbol) : EncodesToItsRow.Statement (.pmSym sym) :=
  ⟨⟨"PM_SYM", 0x00002000, 0xFFFFFFE0⟩, by simp [opcodeTable], rfl, by revert sym; decide⟩

theorem EncodesToItsRow.pmHrphi (c : Byte) : EncodesToItsRow.Statement (.pmHrphi c) :=
  ⟨⟨"PM_HRPHI", 0x00003000, 0xFFFFFF00⟩, by simp [opcodeTable], rfl, by revert c; decide +kernel⟩

theorem EncodesToItsRow.pmHrplo (c : Byte) : EncodesToItsRow.Statement (.pmHrplo c) :=
  ⟨⟨"PM_HRPLO", 0x00004000, 0xFFFFFF00⟩, by simp [opcodeTable], rfl, by revert c; decide +kernel⟩

theorem EncodesToItsRow.pmGen : EncodesToItsRow.Statement .pmGen :=
  ⟨⟨"PM_GEN", 0x00005000, 0xFFFFFFFF⟩, by simp [opcodeTable], rfl, by decide⟩

theorem EncodesToItsRow.bcCfg (fromOp toOp : BitVec 4) (padOp : Bool) :
    EncodesToItsRow.Statement (.bcCfg fromOp toOp padOp) :=
  ⟨⟨"BC_CFG", 0x00008000, 0xFFFFFE00⟩, by simp [opcodeTable], rfl, by revert fromOp toOp padOp; decide +kernel⟩

theorem EncodesToItsRow.bcPush (v : Byte) : EncodesToItsRow.Statement (.bcPush v) :=
  ⟨⟨"BC_PUSH", 0x00009000, 0xFFFFFF00⟩, by simp [opcodeTable], rfl, by revert v; decide +kernel⟩

theorem EncodesToItsRow.bcFlush : EncodesToItsRow.Statement .bcFlush :=
  ⟨⟨"BC_FLUSH", 0x0000A000, 0xFFFFFFFF⟩, by simp [opcodeTable], rfl, by decide⟩

theorem EncodesToItsRow.clrerr : EncodesToItsRow.Statement .clrerr :=
  ⟨⟨"CLRERR", 0x0000E000, 0xFFFFFFFF⟩, by simp [opcodeTable], rfl, by decide⟩

theorem EncodesToItsRow.reset : EncodesToItsRow.Statement .reset :=
  ⟨⟨"RESET", 0x0000F000, 0xFFFFFFFF⟩, by simp [opcodeTable], rfl, by decide⟩

end Sys2Proof.Laws
end

