-- ==== Sys2Proof/Tests/Slice0.lean ====
section
/-! SUPPORT. Tests on small states, each expected value taken from the spec's own vectors (95_test_vectors.md) or a rule's
example, and a witness for the hypotheses of each statement. -/

namespace Sys2Proof.Tests

open Sys2Proof Sys2Proof.Machine

/-- The state of an outcome, or the reset state where it stops. -/
def after (o : Host.Outcome State Fault Refusal) : State :=
  match o with
  | .next s => s
  | .fault _ => State.reset
  | .refused _ => State.reset

/-- After reset, with `CHK` at `c`. -/
def chkAt (c : Chk) : State := setPm { State.reset.pm with chk := c } State.reset

/-- After reset, with a conversion in progress. -/
def bcAt (f t : BitVec 4) (p : Bool) (acc : BitVec 7) (bits : BitVec 3) (cnt : BitVec 16) (q : List Byte) : State :=
  setBc { configured f t p with acc := acc, bits := bits, cnt := cnt, fifo := q } State.reset

/-- In phase ERROR after a DataOutOfRange. -/
def errAt : State := bcError errDataOutOfRange 2 40 (bcAt 5 8 false 2 2 2 [8])

/-- With every sticky flag set. -/
def flaggedAt : State := setCtl ⟨true, 1, true, true⟩ State.reset

/-! ## Well-formedness: each check refuses an ill-formed line (R99) -/

theorem test_wf_sym : AsmLine.wf (.pmSym 32) = false := by decide
theorem test_wf_hrphi : AsmLine.wf (.pmHrphi 256) = false := by decide
theorem test_wf_hrplo : AsmLine.wf (.pmHrplo 256) = false := by decide
theorem test_wf_push : AsmLine.wf (.bcPush 256) = false := by decide
theorem test_wf_from : AsmLine.wf (.bcCfg 16 5 1) = false := by decide
theorem test_wf_to : AsmLine.wf (.bcCfg 8 16 1) = false := by decide
theorem test_wf_pad : AsmLine.wf (.bcCfg 8 5 2) = false := by decide
theorem test_wf_wr_offset : AsmLine.wf (.wr 64 0) = false := by decide
theorem test_wf_wr_value : AsmLine.wf (.wr 0 (2 ^ 32)) = false := by decide
theorem test_wf_rd : AsmLine.wf (.rd 64) = false := by decide
theorem test_wf_hrp : AsmLine.wf (.pmHrp [97, 256]) = false := by decide
theorem test_wf_data : AsmLine.wf (.pmData [0, 32]) = false := by decide
theorem test_wf_bytes : AsmLine.wf (.bcBytes [256]) = false := by decide
/-- R97, R99: a width the command will reject is a well-formed operand. -/
theorem test_wf_admits_bad_width : AsmLine.wf (.bcCfg 0 15 0) = true := by decide

/-! ## Decoding: the words of R93, R99 and 95_test_vectors.md section 2.3 -/

theorem test_decode_nop : decode 0x00000000 = .command .nop := by decide
theorem test_decode_pmInit : decode 0x00001000 = .command .pmInit := by decide
theorem test_decode_pmSym : decode 0x0000201F = .command (.pmSym 31) := by decide
theorem test_decode_pmHrphi : decode 0x00003062 = .command (.pmHrphi 0x62) := by decide
theorem test_decode_pmHrplo : decode 0x00004063 = .command (.pmHrplo 0x63) := by decide
theorem test_decode_pmGen : decode 0x00005000 = .command .pmGen := by decide
theorem test_decode_bcCfg : decode 0x00008085 = .command (.bcCfg 5 8 false) := by decide
theorem test_decode_bcCfg_pad : decode 0x00008158 = .command (.bcCfg 8 5 true) := by decide
theorem test_decode_bcPush : decode 0x000090D6 = .command (.bcPush 0xD6) := by decide
theorem test_decode_bcFlush : decode 0x0000A000 = .command .bcFlush := by decide
theorem test_decode_clrerr : decode 0x0000E000 = .command .clrerr := by decide
theorem test_decode_reset : decode 0x0000F000 = .command .reset := by decide
/-- L2-EN-3: the operand bits of a reserved opcode are not examined. -/
theorem test_decode_reserved_opcode : decode 0x00007ABC = .illegal .reservedOpcode := by decide
/-- L2-EN-6: it is not `PM_SYM 0`. -/
theorem test_decode_reserved_bits : decode 0x00002020 = .illegal .reservedOperandBits := by decide
/-- L2-EN-8. -/
theorem test_decode_cfg_bit9 : decode 0x00008200 = .illegal .reservedOperandBits := by decide
/-- L2-EN-13: the upper half is checked first. -/
theorem test_decode_upper : decode 0xFFFFFFFF = .illegal .upperBits := by decide
theorem test_decodeTableWord : decodeTableWord 32 0x9075 = some (.bcPush 0x75) := by decide
theorem test_encode_bcCfg : encode (.bcCfg 8 5 true) = 0x00008158 := by decide

/-! ## The assembler: R99's and R100's examples -/

theorem test_asm_cfg :
    parseLine ['b', 'c', '.', 'c', 'f', 'g', ' ', '5', ',', ' ', '8', ',', ' ', '0'] = some (.bcCfg 5 8 0) := by decide
theorem test_asm_quoted :
    parseLine ['p', 'm', '.', 'h', 'r', 'p', 'h', 'i', ' ', '\'', 'b', '\''] = some (.pmHrphi 0x62) := by decide
theorem test_asm_hex : parseLine ['b', 'c', '.', 'p', 'u', 's', 'h', ' ', '0', 'x', 'd', '6'] = some (.bcPush 0xD6) := by
  decide
theorem test_asm_hrp : assemble (.pmHrp [97]) = some [.memWrite 0 0x3061, .memWrite 0 0x2000, .memWrite 0 0x4061] := by
  decide
theorem test_asm_refuses : assemble (.bcPush 256) = none := by decide

/-! ## The PM unit: 95_test_vectors.md section 2.1 -/

/-- R124's example; L2-PM-2. -/
theorem test_pmSym : (after (exec (.pmSym 31) State.reset)).pm.chk = 0x3F := by decide
/-- L2-PM-13: one generator and the full low part. -/
theorem test_pmSym_feedback : (after (exec (.pmSym 5) (chkAt 0x03FFFFFF))).pm.chk = 0x0495A857 := by decide
/-- L2-PM-11: all five generators. -/
theorem test_pmstep_all : pmstep 0x3FFFFFFF 31 = 0x2B326EB4 := by decide
/-- L2-PM-9: `top = 16` selects `GEN[4]` only. -/
theorem test_pmstep_top : pmstep 0x20000000 0 = 0x2A1462B3 := by decide
/-- L2-PM-10, of the source's function on numbers. -/
theorem test_ref_pmStep : Ref.pmStep 0x3FFFFFFF 0 = 0x2B326EAB := by decide
/-- R125's example. -/
theorem test_pmHrphi : (after (exec (.pmHrphi 0x61) State.reset)).pm.chk = 0x23 := by decide
/-- L2-PM-32. -/
theorem test_pmHrphi_top : hrpHigh 0xFF = 7 := by decide
/-- R126's example. -/
theorem test_pmHrplo : (after (exec (.pmHrplo 0x61) (chkAt 0x460))).pm.chk = 0x8C01 := by decide
/-- L2-PM-30. -/
theorem test_pmHrplo_low : hrpLow 0x7E = 30 := by decide
/-- L2-PM-16: after reset. -/
theorem test_pmGen : (after (exec .pmGen State.reset)).pm = ⟨0x3B6A57B2, 0x3B6A57B3⟩ := by decide
/-- L2-PM-16: the views, the most significant group first. -/
theorem test_pmGen_views :
    ([0, 1, 2, 3, 4, 5].map fun p => (hostRead (.cksym p) (after (exec .pmGen State.reset))).1) = [29, 22, 20, 21, 29, 19] := by
  decide
/-- R123's example. -/
theorem test_pmInit : (after (exec .pmInit (chkAt 0x15CCFE9E))).pm.chk = 1 := by decide
/-- P1: the step `pm.gen` of the prefix "a". -/
theorem test_pmGen_a : (after (exec .pmGen (chkAt 0x8C01))).pm = ⟨0x15CCFE9E, 0x15CCFE9F⟩ := by decide

/-! ## The BC unit: 95_test_vectors.md section 2.2 -/

/-- R161's example. -/
theorem test_bcCfg : (after (exec (.bcCfg 5 8 false) errAt)).bc = configured 5 8 false := by decide
/-- L2-BC-32: the width check keeps the configuration and the residue, and empties `FIFO`. -/
theorem test_bcCfg_bad :
    (after (exec (.bcCfg 8 15 true) (bcAt 8 5 true 5 3 1 [14]))).bc =
      { configured 8 5 true with acc := 5, bits := 3, cnt := 1, bcErr := 4, errVal := 0xF8 } := by decide
/-- L2-BC-2's step trace, the second push. -/
theorem test_bcPush :
    (after (exec (.bcPush 0x1E) (bcAt 8 5 true 5 3 1 [14]))).bc =
      { configured 8 5 true with acc := 0, bits := 1, cnt := 2, fifo := [14, 20, 15] } := by decide
/-- L2-BC-31: eight groups are needed and one entry is free. -/
theorem test_bcPush_overflow :
    after (exec (.bcPush 0xFF) (bcAt 8 1 true 0 0 1 [1, 1, 1, 1, 1, 1, 1])) =
      overflow (bcAt 8 1 true 0 0 1 [1, 1, 1, 1, 1, 1, 1]) := by decide
/-- R163's example, NonZeroPadding. -/
theorem test_bcFlush_strict :
    (after (exec .bcFlush (bcAt 5 8 false 1 2 2 [0]))).bc =
      { configured 5 8 false with acc := 1, bits := 2, cnt := 2, bcErr := 3, errIdx := 2, errVal := 1 } := by decide
/-- L2-BC-16: the padded group is left-shifted. -/
theorem test_bcFlush_padded :
    (after (exec .bcFlush (bcAt 5 8 true 3 2 2 [255]))).bc = { configured 5 8 true with fifo := [255, 192] } := by decide
/-- L2-BC-19 by the source's function. -/
theorem test_convertBits_range : Ref.convertBits [1, 2, 40] 5 8 false = .error (.dataOutOfRange 2 40) := by decide
/-- L2-BC-27 by the source's function. -/
theorem test_convertBits : Ref.convertBits [7, 7] 3 5 true = .ok [31, 16] := by decide

/-! ## Control, access and steps: sections 2.3 to 2.5 -/

/-- L2-CT-4. -/
theorem test_nop : after (exec .nop errAt) = errAt := by decide
/-- R201: `BC_ERR` is not cleared. -/
theorem test_clrerr : (after (exec .clrerr (setCtl ⟨true, 3, true, true⟩ errAt))) = errAt := by decide
/-- L2-CT-3. -/
theorem test_reset : after (exec .reset (setCtl ⟨true, 1, false, false⟩ errAt)) = State.reset := by decide
/-- L2-AC-1: a misaligned read. -/
theorem test_read_misaligned : (busRead 0x02 (bcAt 8 5 true 7 3 1 [31])).1 = 0 := by decide
/-- L2-AC-1: `STATUS` after it. -/
theorem test_status :
    statusWord (busRead 0x02 (bcAt 8 5 true 7 3 1 [31])).2 = 0x00031009 := by decide
/-- L2-AC-5: a write to `BC_OUT` pops nothing. -/
theorem test_write_readOnly :
    after (perform (.memWrite 0x20 0x1234) (bcAt 8 5 true 7 3 1 [31])) = accError (bcAt 8 5 true 7 3 1 [31]) := by decide
/-- L2-AC-7. -/
theorem test_read_out : (busRead 0x20 (bcAt 8 5 true 7 3 1 [31])).1 = 0x11F := by decide
/-- P5, step 5. -/
theorem test_errinfo : (hostRead .bcErrinfo (after (exec .bcFlush (bcAt 5 8 false 1 2 2 [0])))).1 = 0x00010002 := by decide
/-- L2-EN-14: the first cause is kept. -/
theorem test_first_cause :
    (after (perform (.memWrite 0 0x00000001) (cmdIllegal .reservedOpcode State.reset))).ctl.cmdCause = 1 := by decide
theorem test_withFetchWord : after (step (State.reset.withFetchWord 32 0x1000)) = State.reset := by decide

/-! ## Witnesses: a concrete state and operands that meet the hypotheses of each statement -/

/-- An outcome that is `next` with the answer `a`. -/
def answers {α : Type} [DecidableEq α] (o : Host.Outcome (α × State) Fault Refusal) (a : α) : Bool :=
  match o with
  | .next (b, _) => b = a
  | .fault _ => false
  | .refused _ => false

theorem answers_next {α : Type} [DecidableEq α] {o : Host.Outcome (α × State) Fault Refusal} {a : α}
    (h : answers o a = true) : ∃ t, o = .next (a, t) := by
  rcases o with ⟨b, t⟩ | f | r
  · exact ⟨t, by simp_all [answers]⟩
  · cases h
  · cases h

/-- A host procedure that succeeds. -/
def succeeds {α : Type} (o : Host.Outcome (Except HostError α × State) Fault Refusal) : Bool :=
  match o with
  | .next (.ok _, _) => true
  | .next (.error _, _) => false
  | .fault _ => false
  | .refused _ => false

theorem succeeds_next {α : Type} {o : Host.Outcome (Except HostError α × State) Fault Refusal}
    (h : succeeds o = true) : ∃ a t, o = .next (.ok a, t) := by
  rcases o with ⟨e | a, t⟩ | f | r
  · cases h
  · exact ⟨a, t, rfl⟩
  · cases h
  · cases h

theorem witness_RegistersReadTheirResetValues :
    let s : State := { State.reset with reads := [7], pending := [.resetInput] }
    s.pm = State.reset.pm ∧ s.bc = State.reset.bc ∧ s.ctl = State.reset.ctl := by decide

theorem witness_EncodeOfDecodeIsTheWord : decode 0x000081F8 = .command (.bcCfg 8 15 true) := by decide

theorem witness_LegalWordsAreTheRowsOfTheOpcodeMap :
    decode 0x0000201F = .command (.pmSym 31) ∧ ∃ r ∈ opcodeTable, r.selects 0x0000201F = true := by decide

theorem witness_StepRunsTheDecodedCommand :
    (∃ s : State, s.pending = .memWrite 0x00 0x201F :: [.resetInput] ∧ decode 0x201F = .command (.pmSym 31)) ∧
    (∃ s : State, s.pending = .memWrite 0x00 0x2020 :: [] ∧ decode 0x2020 = .illegal .reservedOperandBits) ∧
    (∃ s : State, s.pending = .memRead 0x04 :: []) ∧ State.reset.pending = [] :=
  ⟨⟨{ State.reset with pending := [.memWrite 0x00 0x201F, .resetInput] }, rfl, by decide⟩,
    ⟨{ State.reset with pending := [.memWrite 0x00 0x2020] }, rfl, by decide⟩,
    ⟨{ State.reset with pending := [.memRead 0x04] }, rfl⟩, rfl⟩

/-- The last misaligned offset, the unmapped one, and the first and last read-only registers. -/
theorem witness_ErroneousAccessesSetAccErrOnly :
    ((0x3F : Offset).toNat % 4 ≠ 0 ∨ (0x3F : Offset) = 0x3C) ∧ ((0x3C : Offset).toNat % 4 ≠ 0 ∨ (0x3C : Offset) = 0x3C) ∧
    ((0x04 : Offset).toNat % 4 = 0 ∧ (0x04 : Offset) ≠ 0x00) ∧ ((0x38 : Offset).toNat % 4 = 0 ∧ (0x38 : Offset) ≠ 0x00) := by
  decide

theorem witness_OnlyAnOutputReadHasASideEffect :
    ((0x24 : Offset) ≠ 0x20 ∨ (bcAt 8 5 true 7 3 1 [31]).bc.fifo = []) ∧ ((0x20 : Offset) ≠ 0x20 ∨ State.reset.bc.fifo = []) := by
  decide

theorem witness_OutputReadPopsTheOldestEntry :
    (bcAt 8 5 true 7 3 1 [31]).bc.fifo = 31 :: [] ∧ State.reset.bc.fifo = [] := by decide

theorem witness_StatusReadsEveryFlag : (bcAt 8 1 true 0 0 1 [1, 1, 1, 1, 1, 1, 1, 1]).bc.fifo.length ≤ 8 := by decide

theorem witness_ReservedBitsReadZero :
    (0x20 : Offset) ≠ 0x00 ∧ perform (.memWrite 0x20 1) State.reset = .next (accError State.reset) := ⟨by decide, rfl⟩

theorem witness_ARunPerformsThePendingTransactionsInOrder :
    ({ State.reset with pending := [.memRead 0x20, .memWrite 0 0x9075] } : State).pending =
      [.memRead 0x20, .memWrite 0 0x9075] := rfl

theorem witness_OnlyReadsAreObserved :
    (∃ s', perform (.memRead 0x04) State.reset = .next s') ∧ (∃ s', perform (.memWrite 0 0x6000) State.reset = .next s') ∧
      ∃ s', perform .resetInput errAt = .next s' := ⟨⟨_, rfl⟩, ⟨_, rfl⟩, ⟨_, rfl⟩⟩

theorem witness_PolymodStepIsTheSourcesAndStaysInWidth : 0x3FFFFFFF < 2 ^ 30 ∧ 31 < 2 ^ 5 := by decide

theorem witness_PmSymIsOnePolymodStep : (chkAt 0).pm.chk = 0 ∧ (chkAt 0x01FFFFFF).pm.chk.toNat < 2 ^ 25 := by decide

/-- The printable range's ends. -/
theorem witness_PmHrphiFeedsTheHighBits :
    (33 ≤ (33 : Byte).toNat ∧ (33 : Byte).toNat ≤ 126) ∧ 33 ≤ (126 : Byte).toNat ∧ (126 : Byte).toNat ≤ 126 := by decide

theorem witness_PmHrploFeedsTheLowBits : (0x41 : Byte).toNat % 2 ^ 5 = (0x61 : Byte).toNat % 2 ^ 5 := by decide

/-- A data symbol can cancel the feedback exactly: one witness for each kind of data step. -/
theorem witness_ChkReachesZeroOnlyByADataStep :
    (∃ t, exec (.pmSym 18) (chkAt 0x03DB52BD) = .next t ∧ (chkAt 0x03DB52BD).pm.chk ≠ 0 ∧ t.pm.chk = 0) ∧
    (∃ t, exec (.pmHrplo 0x12) (chkAt 0x03DB52BD) = .next t ∧ (chkAt 0x03DB52BD).pm.chk ≠ 0 ∧ t.pm.chk = 0) ∧
    (∃ t, exec (.pmHrphi 0xE0) (chkAt 0x191F1951) = .next t ∧ (chkAt 0x191F1951).pm.chk ≠ 0 ∧ t.pm.chk = 0) :=
  ⟨⟨_, rfl, by decide, by decide⟩, ⟨_, rfl, by decide, by decide⟩, ⟨_, rfl, by decide, by decide⟩⟩

/-- Symbols with a BC command, a rejected word, an erroneous access and a read between them. -/
theorem witness_AStreamOfSymbolsLeavesItsPolymod :
    ∀ t ∈ [cmdTxn (.pmSym 3), cmdTxn (.bcPush 0x75), .memWrite 0 0x6000, .memRead 0x02, .memRead 0x20, cmdTxn (.pmSym 31)],
      streamTxn t = true := by decide

/-- "a12uel5l" (95_test_vectors.md L1-1), with its last symbol to be replaced. -/
theorem witness_OneReplacedSymbolIsDetected :
    (31 : Symbol) ≠ 22 ∧
    ∃ t, verifyChecksum [0x61] ([10, 28, 25, 31, 20] ++ 31 :: []) State.reset = .next (true, t) :=
  ⟨by decide, answers_next (by decide +kernel)⟩

theorem witness_VerificationAnswersVerifyChecksum : ∃ t, exec .pmInit errAt = .next t := ⟨_, rfl⟩

/-- The least and greatest legal widths, and the nearest illegal ones. -/
theorem witness_BcCfgConfiguresOrRecordsBadConfig :
    ((1 ≤ (1 : BitVec 4).toNat ∧ (1 : BitVec 4).toNat ≤ 8) ∧ 1 ≤ (8 : BitVec 4).toNat ∧ (8 : BitVec 4).toNat ≤ 8) ∧
    ¬ ((1 ≤ (0 : BitVec 4).toNat ∧ (0 : BitVec 4).toNat ≤ 8) ∧ 1 ≤ (8 : BitVec 4).toNat ∧ (8 : BitVec 4).toNat ≤ 8) ∧
    ¬ ((1 ≤ (8 : BitVec 4).toNat ∧ (8 : BitVec 4).toNat ≤ 8) ∧ 1 ≤ (9 : BitVec 4).toNat ∧ (9 : BitVec 4).toNat ≤ 8) ∧
    (∃ t, exec (.bcCfg 8 1 true) errAt = .next t ∧ errAt.bc.bcErr ≠ 0 ∧ t.bc.bcErr = 0) ∧
    (let s := bcAt 8 8 true 0 0 0 [1, 2, 3, 4, 5, 6, 7];
      s.bc.fromBits = s.bc.toBits ∧ widthLegal s.bc.toBits = true ∧ s.bc.bits = 0 ∧ s.bc.acc = 0 ∧ s.bc.bcErr = 0 ∧
        (0xFF : Byte).toNat < 2 ^ s.bc.fromBits.toNat ∧ s.bc.fifo.length < 8) ∧
    ∃ t, exec (.bcPush 1) (bcAt 8 8 true 0 0 0 []) = .next t :=
  ⟨by decide, by decide, by decide, ⟨_, rfl, by decide, rfl⟩, by decide, _, rfl⟩

/-- States with the invariants, one in each case of a push. -/
theorem inv_errAt : BlockInv errAt := by constructor <;> decide
theorem inv_strict : BlockInv (bcAt 5 8 false 1 2 2 [0]) := by constructor <;> decide
theorem inv_full : BlockInv (bcAt 8 5 true 0 0 5 [31, 31, 31, 31, 31, 31, 31, 31]) := by constructor <;> decide
theorem inv_residue : BlockInv (bcAt 8 5 true 5 3 1 [14]) := by constructor <;> decide
theorem inv_fullResidue : BlockInv (bcAt 8 5 true 15 4 3 [31, 31, 31, 31, 31, 31, 31, 31]) := by constructor <;> decide
theorem inv_reset : BlockInv State.reset := by constructor <;> decide
theorem inv_five : BlockInv (bcAt 5 8 false 31 5 1 []) := by constructor <;> decide

theorem witness_BcPushAppendsOneValue :
    (BlockInv errAt ∧ errAt.bc.bcErr ≠ 0) ∧
    (BlockInv (bcAt 5 8 false 1 2 2 [0]) ∧ (bcAt 5 8 false 1 2 2 [0]).bc.bcErr = 0 ∧ 2 ^ 5 ≤ (32 : Byte).toNat) ∧
    (BlockInv (bcAt 8 5 true 0 0 5 [31, 31, 31, 31, 31, 31, 31, 31]) ∧ 8 < 8 + (0 + 8) / 5) ∧
    (BlockInv (bcAt 8 5 true 5 3 1 [14]) ∧ ¬ 2 ^ 8 ≤ (0x1E : Byte).toNat ∧ ¬ 8 < 1 + (3 + 8) / 5) :=
  ⟨⟨inv_errAt, by decide⟩, ⟨inv_strict, by decide, by decide⟩, ⟨inv_full, by decide⟩, ⟨inv_residue, by decide, by decide⟩⟩

theorem witness_BcFlushCompletesTheConversion :
    BlockInv errAt ∧ (BlockInv State.reset ∧ State.reset.bc.pad = true ∧ State.reset.bc.bits.toNat = 0) ∧
    (BlockInv (bcAt 8 5 true 15 4 3 [31, 31, 31, 31, 31, 31, 31, 31])) ∧
    (BlockInv (bcAt 8 5 true 5 3 1 [14])) ∧ (BlockInv (bcAt 5 8 false 31 5 1 []) ∧ (5 : BitVec 4).toNat ≤ (5 : BitVec 3).toNat) ∧
    BlockInv (bcAt 5 8 false 1 2 2 [0]) :=
  ⟨inv_errAt, ⟨inv_reset, rfl, rfl⟩, inv_fullResidue, inv_residue, ⟨inv_five, by decide⟩, inv_strict⟩

/-- 8 groups at once, from an empty queue. -/
theorem witness_OnePushFitsAnEmptyFifo :
    BlockInv (bcAt 8 1 true 0 0 0 []) ∧ (bcAt 8 1 true 0 0 0 []).bc.bcErr = 0 ∧ (0xFF : Byte).toNat < 2 ^ 8 ∧
      (bcAt 8 1 true 0 0 0 []).bc.fifo = [] ∧ (∃ t, exec (.bcPush 0xFF) (bcAt 8 1 true 0 0 0 []) = .next t) ∧
      (bcAt 8 1 true 0 0 0 []).bc.pad = true ∧ ∃ t, exec .bcFlush (bcAt 8 1 true 0 0 0 []) = .next t :=
  ⟨by constructor <;> decide, by decide, by decide, by decide, ⟨_, rfl⟩, by decide, ⟨_, rfl⟩⟩

theorem witness_TheSpaceTestPredictsRejection :
    BlockInv (bcAt 8 5 true 15 4 3 [31, 31, 31, 31, 31, 31, 31, 31]) ∧
    (bcAt 8 5 true 15 4 3 [31, 31, 31, 31, 31, 31, 31, 31]).bc.bcErr = 0 ∧ (0xFF : Byte).toNat < 2 ^ 8 ∧
    (hostRead .bcCfg (bcAt 8 5 true 15 4 3 [31, 31, 31, 31, 31, 31, 31, 31])).1.getLsbD 8 = true :=
  ⟨inv_fullResidue, by decide, by decide, by decide⟩

/-- 5 to 8, strict: two values driven in, with an unrelated command between them and the one group read. -/
theorem witness_TheResidueIsTheSourcesAccumulator :
    ∃ s1 out s2 acc bits ret, exec (.bcCfg 5 8 false) errAt = .next s1 ∧ Drives ([31, 30].map .bcPush) s1 out s2 ∧
      Ref.feed (5 : BitVec 4).toNat (8 : BitVec 4).toNat (ints [(31 : Byte), 30]) 0 0 0 [] = .ok (acc, bits, ret) :=
  ⟨_, _, _, _, _, _, rfl, .command rfl rfl (.other (cmdTxn (.pmSym 3)) rfl rfl (.command rfl rfl (.read rfl (.done _)))), rfl⟩

/-- One conversion for each outcome of `convert_bits` (L2-BC-3, L2-BC-18, L2-BC-10, L2-BC-12), and a state in phase ERROR. -/
theorem witness_AConversionIsConvertBits :
    (∃ s1 out s2, exec (.bcCfg 8 5 true) errAt = .next s1 ∧ Drives ([0xFF].map .bcPush ++ [.bcFlush]) s1 out s2 ∧
      Ref.convertBits (ints [(0xFF : Byte)]) 8 5 true = .ok [31, 28]) ∧
    (∃ s1 out s2, exec (.bcCfg 5 8 false) errAt = .next s1 ∧ Drives ([32].map .bcPush ++ [.bcFlush]) s1 out s2 ∧
      Ref.convertBits (ints [(32 : Byte)]) 5 8 false = .error (.dataOutOfRange 0 32)) ∧
    (∃ s1 out s2, exec (.bcCfg 5 8 false) errAt = .next s1 ∧ Drives ([31].map .bcPush ++ [.bcFlush]) s1 out s2 ∧
      Ref.convertBits (ints [(31 : Byte)]) 5 8 false = .error .illegalPadding) ∧
    (∃ s1 out s2, exec (.bcCfg 5 8 false) errAt = .next s1 ∧ Drives ([0, 1].map .bcPush ++ [.bcFlush]) s1 out s2 ∧
      Ref.convertBits (ints [(0 : Byte), 1]) 5 8 false = .error .nonZeroPadding) ∧ errAt.bc.bcErr ≠ 0 :=
  ⟨⟨_, _, _, rfl, .command rfl rfl (.read rfl (.command rfl rfl (.done _))), by decide⟩,
    ⟨_, _, _, rfl, .command rfl rfl (.command rfl rfl (.done _)), by decide⟩,
    ⟨_, _, _, rfl, .command rfl rfl (.command rfl rfl (.done _)), by decide⟩,
    ⟨_, _, _, rfl, .command rfl rfl (.command rfl rfl (.command rfl rfl (.done _))), by decide⟩, by decide⟩

theorem witness_TheDrainingHostGetsConvertBits :
    1 ≤ (1 : BitVec 4).toNat ∧ (1 : BitVec 4).toNat ≤ 8 ∧ 1 ≤ (8 : BitVec 4).toNat ∧ (8 : BitVec 4).toNat ≤ 8 ∧
      ([1, 0, 1] : List Byte).length < 2 ^ 16 := by decide

theorem witness_BytesSurviveTheRoundTrip :
    (Ref.convertBits (ints [(0xFF : Byte)]) 8 5 true = .ok [31, 28] ∧ [31, 28].getLast? = some 28) ∧
    5 ≤ 5 * ([31] : List Symbol).length % 8 ∧
    (5 * ([0, 1] : List Symbol).length % 8 < 5 ∧
      bitString 5 (nats ([0, 1] : List Symbol)) % 2 ^ (5 * ([0, 1] : List Symbol).length % 8) ≠ 0) := by decide

theorem witness_OutputLengths :
    Ref.convertBits ([7, 7].map fun v => (v : Int)) 3 5 true = .ok [31, 16] ∧
      Ref.convertBits ([31, 28].map fun v => (v : Int)) 5 8 false = .ok [255] := by decide

theorem witness_EveryStepKeepsTheInvariants :
    BlockInv (bcAt 8 5 true 5 3 1 [14]) ∧
      ∃ s', step (State.withFetchWord (bcAt 8 5 true 5 3 1 [14]) 32 0x901E) = .next s' := ⟨inv_residue, ⟨_, rfl⟩⟩

theorem witness_TheTwoUnitsShareNothing :
    (isPmCommand .pmGen = true ∧ State.reset.pm = errAt.pm ∧ (∃ t, exec .pmGen State.reset = .next t) ∧
      ∃ t, exec .pmGen errAt = .next t) ∧
    (isBcCommand (.bcPush 1) = true ∧ State.reset.bc = (chkAt 7).bc ∧ State.reset.ctl.ovf = (chkAt 7).ctl.ovf ∧ (∃ t, exec (.bcPush 1) State.reset = .next t) ∧
      ∃ t, exec (.bcPush 1) (chkAt 7) = .next t) ∧
    (let s := bcError errBadConfig 0 0 (chkAt 7);
      ∃ t, exec .reset s = .next t ∧ t.pm ≠ s.pm ∧ t.bc ≠ s.bc) :=
  ⟨⟨rfl, rfl, ⟨_, rfl⟩, ⟨_, rfl⟩⟩, ⟨rfl, rfl, rfl, ⟨_, rfl⟩, ⟨_, rfl⟩⟩, ⟨_, rfl, by decide, by decide⟩⟩

theorem witness_TheTwoUnitsInterleaveFreely : isPmCommand (.pmSym 1) = true ∧ isBcCommand .bcFlush = true := by decide

/-- Each clause's element does change by some transaction. -/
theorem witness_EachElementHasItsWritersOnly :
    (after (perform (cmdTxn .pmGen) State.reset)).pm.chk ≠ State.reset.pm.chk ∧
    (after (perform (cmdTxn .pmGen) State.reset)).pm.cksum ≠ State.reset.pm.cksum ∧
    (after (perform (cmdTxn (.bcCfg 1 1 false)) State.reset)).bc.fromBits ≠ State.reset.bc.fromBits ∧
    (after (perform (cmdTxn (.bcPush 0xFF)) State.reset)).bc.bits ≠ State.reset.bc.bits ∧
    (after (perform (cmdTxn (.bcCfg 0 1 false)) State.reset)).bc.bcErr ≠ State.reset.bc.bcErr ∧
    (after (perform (.memRead 0x20) (bcAt 8 5 true 5 3 1 [14]))).bc.fifo ≠ [14] ∧
    (after (perform (.memWrite 0x00 0x6000) State.reset)).ctl.cmdErr ≠ false ∧
    (after (perform (cmdTxn (.bcPush 0xFF)) (bcAt 8 5 true 0 0 5 [31, 31, 31, 31, 31, 31, 31, 31]))).ctl.ovf ≠ false ∧
    (after (perform (cmdTxn .bcFlush) (bcAt 8 5 true 15 4 3 [31, 31, 31, 31, 31, 31, 31, 31]))).ctl.ovf ≠ false ∧
    (after (perform (.memRead 0x3C) State.reset)).ctl.accErr ≠ false ∧
    (after (perform (.memRead 0x05) State.reset)).ctl.accErr ≠ false ∧
    (after (perform (.memWrite 0x04 0) State.reset)).ctl.accErr ≠ false := by decide

theorem witness_NoFlagClearsItself :
    (widthLegal 1 = true ∧ widthLegal 8 = true) ∧
    (∃ s', perform (.memWrite 0x00 0x0000E000) flaggedAt = .next s' ∧ flaggedAt.ctl.cmdErr = true ∧ s'.ctl.cmdErr = false ∧
      flaggedAt.ctl.ovf = true ∧ s'.ctl.ovf = false ∧ flaggedAt.ctl.accErr = true ∧ s'.ctl.accErr = false) ∧
    ∃ s', perform (cmdTxn (.bcCfg 8 1 true)) errAt = .next s' ∧ errAt.bc.bcErr ≠ 0 ∧ s'.bc.bcErr = 0 :=
  ⟨by decide, ⟨_, rfl, rfl, rfl, rfl, rfl, rfl, rfl⟩, ⟨_, rfl, by decide, rfl⟩⟩

theorem witness_ATransactionRecordsAtMostOneError :
    ∃ s', perform (.memWrite 0x02 0x6000) State.reset = .next s' := ⟨_, rfl⟩

theorem witness_ErrorsDoNotNestOrQueue :
    (decode 0x0000FFFF = .illegal .reservedOperandBits ∧ flaggedAt.ctl.cmdErr = true) ∧ flaggedAt.ctl.accErr = true ∧
    flaggedAt.ctl.ovf = true ∧ errAt.bc.bcErr ≠ 0 ∧ (widthLegal 0 = false ∨ widthLegal 5 = false) ∧
    (widthLegal 8 = false ∨ widthLegal 9 = false) := by decide

theorem witness_DecodingIgnoresTheCaseOfAOneCaseString :
    (([0x41, 0x62] : List Byte).any isUpper = true ∧ ([0x41, 0x62] : List Byte).any isLower = true) ∧
      ([0x41, 0x31, 0x32, 0x55, 0x45, 0x4C, 0x35, 0x4C] : List Byte).any isLower = false := by decide

/-- The longest string: a prefix of 83 characters and no data. -/
theorem witness_EncodedStringsDecode :
    List.replicate 83 (0x61 : Byte) ≠ [] ∧
    (∀ c ∈ List.replicate 83 (0x61 : Byte), unprintable c = false ∧ isUpper c = false) ∧
    (List.replicate 83 (0x61 : Byte)).length + 7 + ([] : List Symbol).length ≤ 90 := by decide +kernel

/-- "a12uel5l" from "a", and a two-byte program of version 1. -/
theorem witness_SelfVerificationOnlyRefuses :
    (∃ t, bech32Encode true [0x61] [] State.reset =
      .next (.ok [0x61, 0x31, 0x32, 0x75, 0x65, 0x6C, 0x35, 0x6C], t)) ∧
    ∃ addr t, segwitEncode true [0x62, 0x63] 1 [0x75, 0x1E] State.reset = .next (.ok addr, t) :=
  ⟨answers_next (by decide +kernel), succeeds_next (by decide +kernel)⟩

theorem witness_SegwitAddressesDecode :
    ([0x62, 0x63] : List Byte) ≠ [] ∧ (∀ c ∈ ([0x62, 0x63] : List Byte), unprintable c = false ∧ isUpper c = false) ∧
    (16 : Symbol).toNat ≤ 16 ∧ programLengthOk 16 40 = true ∧ programLengthOk 0 20 = true ∧
    2 + 8 + (8 * 40 + 4) / 5 ≤ 90 ∧ State.reset.ctl.ovf = false := by decide

/-- R221, R224, R232: "A" is fed as "a", whose checksum is "2uel5l" (R128's example), and the string keeps the "A". -/
theorem test_encode_lower_cases_the_feed :
    ∃ t, bech32Encode false [0x41] [] State.reset = .next (.ok [0x41, 0x31, 0x32, 0x75, 0x65, 0x6C, 0x35, 0x6C], t) :=
  answers_next (by decide +kernel)

/-- A value above 31; "A" beside "2uel5l"; a blank; 84 characters. -/
theorem witness_EncodingFeedsTheLowerCasePrefix :
    ((∀ x ∈ ([31] : List Int), 0 ≤ x ∧ x ≤ 31) ∧ ¬ (0 ≤ (32 : Int) ∧ (32 : Int) ≤ 31) ∧ ¬ (0 ≤ (-1 : Int) ∧ (-1 : Int) ≤ 31)) ∧
    (([0x41] : List Byte).any isUpper = true ∧
      (([] ++ [10, 28, 25, 31, 20, 31] : List Symbol).map symbolChar).any isLower = true ∧
      ∃ t, createChecksum (([0x41] : List Byte).map lowerChar) [] State.reset = .next ([10, 28, 25, 31, 20, 31], t)) ∧
    ([0x20] : List Byte).any unprintable = true ∧ 90 < (List.replicate 84 (0x61 : Byte)).length + 1 + 6 :=
  ⟨⟨by decide, by decide, by decide⟩, ⟨by decide, by decide, answers_next (by decide +kernel)⟩, by decide, by decide⟩

end Sys2Proof.Tests
end

section
/-! PROOFS. The state (spec 10_state.md): everything a command and a transaction can do, the invariants every step keeps,
the separation of the two units, each element's writers, and the register views. -/

namespace Sys2Proof.Proofs

open Sys2Proof Sys2Proof.Machine Sys2Proof.Laws

/-! ### Everything a command and a transaction can do -/

/-- Every outcome of a command from `s`: one constructor for each branch of its rule, with the branch's conditions
(R123 to R127, R161 to R163, R200 to R202). -/
inductive CmdEffect (s : State) : Instr → State → Prop
  | nop : CmdEffect s .nop s
  | pmInit : CmdEffect s .pmInit (setPm { s.pm with chk := Config.seed } s)
  | pmSym (x : Symbol) : CmdEffect s (.pmSym x) (feedSymbol x s)
  | pmHrphi (c : Byte) : CmdEffect s (.pmHrphi c) (feedSymbol (hrpHigh c) s)
  | pmHrplo (c : Byte) : CmdEffect s (.pmHrplo c) (feedSymbol (hrpLow c) s)
  | pmGen : CmdEffect s .pmGen (setPm (genUnit s.pm) s)
  | cfgLegal (f g : BitVec 4) (p : Bool) (hf : widthLegal f = true) (hg : widthLegal g = true) :
      CmdEffect s (.bcCfg f g p) (setBc (configured f g p) s)
  | cfgIllegal (f g : BitVec 4) (p : Bool) (hw : widthLegal f = false ∨ widthLegal g = false) :
      CmdEffect s (.bcCfg f g p) (bcError errBadConfig 0 (cfgByte f g).toNat s)
  | pushIgnored (v : Byte) (herr : s.bc.bcErr ≠ 0) : CmdEffect s (.bcPush v) s
  | pushOutOfRange (v : Byte) (hrun : s.bc.bcErr = 0) (hv : outOfRange v s.bc = true) :
      CmdEffect s (.bcPush v) (bcError errDataOutOfRange s.bc.cnt.toNat v.toNat s)
  | pushOverflows (v : Byte) (hrun : s.bc.bcErr = 0) (hv : outOfRange v s.bc = false)
      (hfull : pushNoSpace s.bc = true) : CmdEffect s (.bcPush v) (overflow s)
  | pushAppends (v : Byte) (hrun : s.bc.bcErr = 0) (hv : outOfRange v s.bc = false)
      (hfit : pushNoSpace s.bc = false) : CmdEffect s (.bcPush v) (setBc (appended v s.bc) s)
  | flushIgnored (herr : s.bc.bcErr ≠ 0) : CmdEffect s .bcFlush s
  | flushOverflows (hrun : s.bc.bcErr = 0) (hpad : s.bc.pad = true) (hbits : 0 < s.bc.bits.toNat)
      (hfull : s.bc.fifo.length = 8) : CmdEffect s .bcFlush (overflow s)
  | flushPads (hrun : s.bc.bcErr = 0) (hpad : s.bc.pad = true) (hbits : 0 < s.bc.bits.toNat)
      (hfit : s.bc.fifo.length ≠ 8) :
      CmdEffect s .bcFlush (setBc (startConversion { s.bc with fifo := s.bc.fifo ++ [paddedGroup s.bc] }) s)
  | flushPadsNothing (hrun : s.bc.bcErr = 0) (hpad : s.bc.pad = true) (hbits : s.bc.bits.toNat = 0) :
      CmdEffect s .bcFlush (setBc (startConversion s.bc) s)
  | flushIllegalPadding (hrun : s.bc.bcErr = 0) (hpad : s.bc.pad = false)
      (hbits : s.bc.fromBits.toNat ≤ s.bc.bits.toNat) :
      CmdEffect s .bcFlush (bcError errIllegalPadding s.bc.cnt.toNat s.bc.acc.toNat s)
  | flushNonZeroPadding (hrun : s.bc.bcErr = 0) (hpad : s.bc.pad = false)
      (hbits : s.bc.bits.toNat < s.bc.fromBits.toNat) (hacc : s.bc.acc ≠ 0) :
      CmdEffect s .bcFlush (bcError errNonZeroPadding s.bc.cnt.toNat s.bc.acc.toNat s)
  | flushStrict (hrun : s.bc.bcErr = 0) (hpad : s.bc.pad = false) (hbits : s.bc.bits.toNat < s.bc.fromBits.toNat)
      (hacc : s.bc.acc = 0) : CmdEffect s .bcFlush (setBc (startConversion s.bc) s)
  | clrerr : CmdEffect s .clrerr (clearSticky s)
  | reset : CmdEffect s .reset (resetBlock s)

theorem cmdEffect_of_execBcPush {v : Byte} {s t : State} (h : execBcPush v s = .next t) :
    CmdEffect s (.bcPush v) t := by
  rcases execBcPush_cases v s t h with
    ⟨herr, rfl⟩ | ⟨hrun, hv, rfl⟩ | ⟨hrun, hv, hfull, rfl⟩ | ⟨hrun, hv, hfit, rfl⟩
  · exact .pushIgnored v herr
  · exact .pushOutOfRange v hrun hv
  · exact .pushOverflows v hrun hv hfull
  · exact .pushAppends v hrun hv hfit

theorem cmdEffect_of_execBcFlush {s t : State} (h : execBcFlush s = .next t) : CmdEffect s .bcFlush t := by
  rcases execBcFlush_cases s t h with ⟨herr, rfl⟩ | ⟨hrun, hpad, rfl⟩ | ⟨hrun, hpad, rfl⟩
  · exact .flushIgnored herr
  · rcases flushPadded_cases s with ⟨hbits, hfull, e⟩ | ⟨hbits, hfit, e⟩ | ⟨hbits, e⟩ <;> rw [e]
    · exact .flushOverflows hrun hpad hbits hfull
    · exact .flushPads hrun hpad hbits hfit
    · exact .flushPadsNothing hrun hpad hbits
  · rcases flushStrict_cases s with ⟨hbits, e⟩ | ⟨hbits, hacc, e⟩ | ⟨hbits, hacc, e⟩ <;> rw [e]
    · exact .flushIllegalPadding hrun hpad hbits
    · exact .flushNonZeroPadding hrun hpad hbits hacc
    · exact .flushStrict hrun hpad hbits hacc

/-- Everything a command can do (R97). -/
theorem cmdEffect_of_exec {i : Instr} {s t : State} (h : exec i s = .next t) : CmdEffect s i t := by
  cases i with
  | bcCfg f g p =>
    rcases execBcCfg_cases f g p s t h with ⟨hf, hg, rfl⟩ | ⟨hw, rfl⟩
    · exact .cfgLegal f g p hf hg
    · exact .cfgIllegal f g p hw
  | bcPush v => exact cmdEffect_of_execBcPush h
  | bcFlush => exact cmdEffect_of_execBcFlush h
  | _ => cases h; constructor

/-- Every outcome of a transaction from `s` (R62 to R68, R90 to R97, R290). -/
inductive TxnEffect (s : State) : Txn → State → Prop
  | resetInput : TxnEffect s .resetInput (resetBlock s)
  | command {t : Txn} {s' : State} (i : Instr) (ht : txnCommand t = some i) (he : CmdEffect s i s') : TxnEffect s t s'
  | illegal (w : Word) (c : IllegalCause) (hw : decode w = .illegal c) :
      TxnEffect s (.memWrite 0x00 w) (cmdIllegal c s)
  | readError (off : Offset) (hoff : off.toNat % 4 ≠ 0 ∨ off = 0x3C) :
      TxnEffect s (.memRead off) (logRead 0 (accError s))
  | writeError (off : Offset) (v : Word) (hoff : off ≠ 0x00) : TxnEffect s (.memWrite off v) (accError s)
  | read (r : Reg) (hr : r ≠ .bcOut) : TxnEffect s (.memRead (regOffset r)) (logRead (regValue r s) s)
  | pop : TxnEffect s (.memRead 0x20) (logRead (outWord s) (popFifo s))

/-- A slot's register is at the slot's offset (R45). -/
theorem eq_regOffset_of_regAt {off : Offset} {r : Reg} (h : regAt off = some r) : off = regOffset r := by
  have hall : ∀ off : Offset, (regAt off).all (off = regOffset ·) = true := by decide
  simpa [h] using hall off

/-- The offsets that select no register are the misaligned ones and the unmapped slot (R60, R62, R63). -/
theorem offset_of_regAt_none : ∀ off : Offset, regAt off = none → off.toNat % 4 ≠ 0 ∨ off = 0x3C := by decide

/-- A read that selects no register records the access error and returns 0 (R62, R63). -/
theorem busRead_of_regAt_none {off : Offset} (h : regAt off = none) (s : State) :
    busRead off s = (0, logRead 0 (accError s)) := by
  simp [busRead, h]

/-- A write anywhere but to `CMD` records the access error and does nothing else (R62 to R64). -/
theorem busWrite_of_ne_zero {off : Offset} (h : off ≠ 0x00) (v : Word) (s : State) :
    busWrite off v s = .next (accError s) := by
  unfold busWrite
  split
  · rfl
  split
  · rfl
  · exact absurd (eq_regOffset_of_regAt ‹_›) h
  · rfl

theorem txnEffect_memRead (off : Offset) (s : State) : TxnEffect s (.memRead off) (busRead off s).2 := by
  rcases hr : regAt off with _ | r
  · rw [busRead_of_regAt_none hr]
    exact .readError off (offset_of_regAt_none off hr)
  · obtain rfl := eq_regOffset_of_regAt hr
    rw [busRead_regOffset]
    by_cases ho : r = .bcOut
    · subst ho; exact .pop
    · simpa only [if_neg ho] using .read r ho

theorem txnEffect_of_writeCmd {w : Word} {s s' : State} (h : writeCmd w s = .next s') :
    TxnEffect s (.memWrite 0x00 w) s' := by
  rcases writeCmd_cases w s with ⟨i, hi, e⟩ | ⟨c, hc, e⟩ <;> rw [e] at h
  · exact .command i (by simp [txnCommand, hi]) (cmdEffect_of_exec h)
  · cases h; exact .illegal w c hc

/-- Everything a transaction can do (R68). -/
theorem txnEffect_of_perform {t : Txn} {s s' : State} (h : perform t s = .next s') : TxnEffect s t s' := by
  cases t with
  | memRead off => cases h; exact txnEffect_memRead off s
  | memWrite off v =>
    by_cases ho : off = 0x00
    · subst ho; exact txnEffect_of_writeCmd (perform_write_zero v s ▸ h)
    · cases (busWrite_of_ne_zero ho v s).symm.trans h
      exact .writeError off v ho
  | resetInput => cases h; exact .resetInput

/-! ### The invariants, operation by operation

An operation keeps every invariant over the elements it does not write as it stands; each lemma gives the others. -/

variable {s : State}

theorem blockInv_pending (h : BlockInv s) (ts : List Txn) : BlockInv { s with pending := ts } := { h with }

theorem blockInv_setPm (h : BlockInv s) (p : PmUnit) : BlockInv (setPm p s) := { h with }

theorem blockInv_logRead (h : BlockInv s) (v : Word) : BlockInv (logRead v s) := { h with }

theorem blockInv_accError (h : BlockInv s) : BlockInv (accError s) := { h with }

theorem blockInv_overflow (h : BlockInv s) : BlockInv (overflow s) := { h with }

theorem blockInv_cmdIllegal (h : BlockInv s) (c : IllegalCause) : BlockInv (cmdIllegal c s) :=
  { h with
    noCause := nofun
    cause := fun _ => by
      rw [cmdIllegal_cmdCause]
      split
      · exact h.cause ‹_›
      · cases c <;> decide }

theorem blockInv_clearSticky (h : BlockInv s) : BlockInv (clearSticky s) :=
  { h with noCause := fun _ => rfl, cause := nofun }

theorem blockInv_resetBlock (s : State) : BlockInv (resetBlock s) := by
  constructor <;> simp [BcUnit.reset, Control.reset]

theorem blockInv_popFifo (h : BlockInv s) : BlockInv (popFifo s) :=
  { h with
    fifoShort := by have := h.fifoShort; simp only [popFifo_bc, List.length_tail]; omega
    fifoBelow := fun e he => h.fifoBelow e (List.mem_of_mem_tail he)
    errEmpty := fun herr => by simp [h.errEmpty herr] }

/-- An error record keeps the invariants when its code is one of R39's and BadConfig's index is 0 (R266, R267). -/
theorem blockInv_bcError (h : BlockInv s) {code : BitVec 3} {idx val : Nat} (h0 : code ≠ 0) (h4 : code.toNat ≤ 4)
    (hidx : code = 4 → idx = 0) : BlockInv (bcError code idx val s) :=
  { h with
    fifoShort := Nat.zero_le _
    fifoBelow := nofun
    errCode := h4
    errEmpty := fun _ => rfl
    runContext := fun e => absurd e h0
    badConfigContext := fun e => by simp [hidx e] }

theorem blockInv_configured (h : BlockInv s) {f g : BitVec 4} (hf : widthLegal f = true) (hg : widthLegal g = true)
    (p : Bool) : BlockInv (setBc (configured f g p) s) :=
  { h with
    fromLegal := (widthLegal_iff f).1 hf
    toLegal := (widthLegal_iff g).1 hg
    bitsBelow := ((widthLegal_iff g).1 hg).1
    accBelow := Nat.one_pos
    fifoShort := Nat.zero_le _
    fifoBelow := nofun
    errCode := Nat.zero_le _
    errEmpty := fun _ => rfl
    runContext := fun _ => ⟨rfl, rfl⟩
    badConfigContext := nofun }

theorem blockInv_startConversion (h : BlockInv s) : BlockInv (setBc (startConversion s.bc) s) :=
  { h with bitsBelow := h.toLegal.1, accBelow := Nat.one_pos }

/-- In phase RUN the queue may grow by groups below `2^TO`, up to its depth (R41). -/
theorem blockInv_fifo_append (h : BlockInv s) (hrun : s.bc.bcErr = 0) {q : List Byte}
    (hlen : s.bc.fifo.length + q.length ≤ 8) (hq : ∀ e ∈ q, e.toNat < 2 ^ s.bc.toBits.toNat) :
    BlockInv (setBc { s.bc with fifo := s.bc.fifo ++ q } s) :=
  { h with
    fifoShort := by simpa using hlen
    fifoBelow := fun e he => (List.mem_append.1 he).elim (h.fifoBelow e) (hq e)
    errEmpty := fun herr => absurd hrun herr }

/-- The padded group is cut to `TO` bits in every state (R163). -/
theorem paddedGroup_below (b : BcUnit) : (paddedGroup b).toNat < 2 ^ b.toBits.toNat := by
  rw [paddedGroup, and_mask, BitVec.toNat_ofNat]
  exact lt_of_le_of_lt (Nat.mod_le _ _) (Nat.mod_lt _ (by positivity))

theorem blockInv_flushPads (h : BlockInv s) (hrun : s.bc.bcErr = 0) (hfit : s.bc.fifo.length ≠ 8) :
    BlockInv (setBc (startConversion { s.bc with fifo := s.bc.fifo ++ [paddedGroup s.bc] }) s) := by
  have hlen : s.bc.fifo.length + [paddedGroup s.bc].length ≤ 8 := by
    have := h.fifoShort
    rw [List.length_singleton]
    omega
  exact blockInv_startConversion (blockInv_fifo_append h hrun hlen (by simpa using paddedGroup_below s.bc))

/-- The residue of an accepted push is cut to the bits that are left (R162). -/
theorem appended_acc_below (v : Byte) (b : BcUnit) (ht : 1 ≤ b.toBits.toNat ∧ b.toBits.toNat ≤ 8) :
    (appended v b).acc.toNat < 2 ^ (appended v b).bits.toNat := by
  rw [appended_bits v b ht]
  simp only [appended, and_mask, emitGroups_bits, left_bits, BitVec.toNat_ofNat]
  exact lt_of_le_of_lt (Nat.mod_le _ _) (Nat.mod_lt _ (by positivity))

theorem blockInv_appended (h : BlockInv s) (v : Byte) (hrun : s.bc.bcErr = 0) (hfit : pushNoSpace s.bc = false) :
    BlockInv (setBc (appended v s.bc) s) :=
  { h with
    bitsBelow := by
      rw [setBc_bc, appended_bits v s.bc h.toLegal]
      exact Nat.mod_lt _ h.toLegal.1
    accBelow := appended_acc_below v s.bc h.toLegal
    fifoShort := by
      have := (pushNoSpace_iff s.bc h.fifoShort).not.1 (by simp [hfit])
      rw [setBc_bc, appended_fifo_length]
      omega
    fifoBelow := fun e he => (List.mem_append.1 he).elim (h.fifoBelow e) (emitGroups_below _ _ _ _ e)
    errEmpty := fun herr => absurd hrun herr }

theorem blockInv_cmdEffect (h : BlockInv s) {i : Instr} {t : State} (he : CmdEffect s i t) : BlockInv t := by
  cases he with
  | nop | pushIgnored | flushIgnored => exact h
  | pmInit | pmSym | pmHrphi | pmHrplo | pmGen => exact blockInv_setPm h _
  | cfgLegal f g p hf hg => exact blockInv_configured h hf hg p
  | cfgIllegal => exact blockInv_bcError h (by decide) (by decide) (fun _ => rfl)
  | pushOutOfRange | flushIllegalPadding | flushNonZeroPadding =>
    exact blockInv_bcError h (by decide) (by decide) nofun
  | pushOverflows | flushOverflows => exact blockInv_overflow h
  | pushAppends v hrun _ hfit => exact blockInv_appended h v hrun hfit
  | flushPads hrun _ _ hfit => exact blockInv_flushPads h hrun hfit
  | flushPadsNothing | flushStrict => exact blockInv_startConversion h
  | clrerr => exact blockInv_clearSticky h
  | reset => exact blockInv_resetBlock s

theorem blockInv_txnEffect (h : BlockInv s) {t : Txn} {s' : State} (he : TxnEffect s t s') : BlockInv s' := by
  cases he with
  | resetInput => exact blockInv_resetBlock s
  | command i ht he => exact blockInv_cmdEffect h he
  | illegal w c hw => exact blockInv_cmdIllegal h c
  | readError => exact blockInv_logRead (blockInv_accError h) 0
  | writeError => exact blockInv_accError h
  | read => exact blockInv_logRead h _
  | pop => exact blockInv_logRead (blockInv_popFifo h) _

/-- Settles O45: a step waits or performs one transaction, and every outcome of a transaction keeps the invariants. -/
theorem everyStepKeepsTheInvariants : Obligations.EveryStepKeepsTheInvariants := by
  intro s s' h hs
  unfold step at hs
  split at hs
  · cases hs; exact h
  · exact blockInv_txnEffect (blockInv_pending h _) (txnEffect_of_perform hs)

/-- Settles O44: the reset state is the outcome of a reset. -/
theorem invariantsHoldAfterReset : Obligations.InvariantsHoldAfterReset := blockInv_resetBlock State.reset

/-- Settles O1: the reset operation is the assignment R57 lists. -/
theorem resetWritesEveryElement : Obligations.ResetWritesEveryElement := ⟨rfl, rfl, rfl, fun _ => rfl⟩

/-! ### The two units, and each element's writers -/

variable {i : Instr} {s1 s2 t t1 t2 : State}

/-- A PM command leaves the other two partitions alone (R30, R133). -/
theorem pmCommand_frame (hi : isPmCommand i = true) (h : exec i s = .next t) : t.bc = s.bc ∧ t.ctl = s.ctl := by
  cases cmdEffect_of_exec h with
  | pmInit | pmSym | pmHrphi | pmHrplo | pmGen => exact ⟨rfl, rfl⟩
  | _ => cases hi

/-- A PM command's effect on the PM unit depends on the PM unit alone (R30). -/
theorem pmCommand_agrees (hi : isPmCommand i = true) (hpm : s1.pm = s2.pm) (h1 : exec i s1 = .next t1)
    (h2 : exec i s2 = .next t2) : t1.pm = t2.pm := by
  cases i with
  | pmInit | pmSym | pmHrphi | pmHrplo | pmGen => cases h1; cases h2; simp [hpm]
  | _ => cases hi

/-- A BC command leaves the PM unit alone, and every control element but `OVF` (R30). -/
theorem bcCommand_frame (hi : isBcCommand i = true) (h : exec i s = .next t) :
    t.pm = s.pm ∧ t.ctl.cmdErr = s.ctl.cmdErr ∧ t.ctl.cmdCause = s.ctl.cmdCause ∧ t.ctl.accErr = s.ctl.accErr := by
  cases cmdEffect_of_exec h with
  | nop | pmInit | pmSym | pmHrphi | pmHrplo | pmGen | clrerr | reset => cases hi
  | _ => exact ⟨rfl, rfl, rfl, rfl⟩

/-- A BC command tests and reads the BC unit alone, so two states that share it take the same branch (R30). -/
theorem bcCommand_agrees (hi : isBcCommand i = true) (hbc : s1.bc = s2.bc) (h1 : exec i s1 = .next t1)
    (h2 : exec i s2 = .next t2) : t1.bc = t2.bc ∧ (s1.ctl.ovf = s2.ctl.ovf → t1.ctl.ovf = t2.ctl.ovf) := by
  cases i with
  | bcCfg f g p =>
    simp only [exec, execBcCfg] at h1 h2
    split_ifs at h1 h2 <;> cases h1 <;> cases h2 <;> simp [hbc]
  | bcPush v =>
    simp only [exec, execBcPush, hbc] at h1 h2
    split_ifs at h1 h2 <;> cases h1 <;> cases h2 <;> simp [hbc]
  | bcFlush =>
    simp only [exec, execBcFlush, flushPadded, flushStrict, hbc] at h1 h2
    split_ifs at h1 h2 <;> cases h1 <;> cases h2 <;> simp [hbc]
  | _ => cases hi

theorem eq_reset_of_changes_both (h : exec i s = .next t) (hpm : t.pm ≠ s.pm) (hbc : t.bc ≠ s.bc) : i = .reset := by
  cases i with
  | nop | clrerr => cases h; exact absurd rfl hpm
  | pmInit | pmSym | pmHrphi | pmHrplo | pmGen => exact absurd (pmCommand_frame rfl h).1 hbc
  | bcCfg | bcPush | bcFlush => exact absurd (bcCommand_frame rfl h).1 hpm
  | reset => rfl

/-- Settles O46: agreement on the unit a command belongs to, and the frame of the rest. -/
theorem theTwoUnitsShareNothing : Obligations.TheTwoUnitsShareNothing := by
  refine ⟨fun i s1 s2 t1 t2 hi hpm h1 h2 => ⟨pmCommand_agrees hi hpm h1 h2, pmCommand_frame hi h1⟩,
    fun i s1 s2 t1 t2 hi hbc h1 h2 => ?_, fun i s t h => eq_reset_of_changes_both h⟩
  obtain ⟨hbc', hovf⟩ := bcCommand_agrees hi hbc h1 h2
  obtain ⟨hpm, herr, hcause, hacc⟩ := bcCommand_frame hi h1
  exact ⟨hbc', hpm, herr, hcause, hacc, hovf⟩

/-- Settles O48: outcome by outcome, the elements it writes name it among their writers. -/
theorem eachElementHasItsWritersOnly : Obligations.EachElementHasItsWritersOnly := by
  intro t s s' h
  cases txnEffect_of_perform h with
  | resetInput => simp
  | command i ht he =>
    simp only [ht]
    cases he with
    | nop | pushIgnored | flushIgnored | clrerr | reset => simp
    | pmInit | pmSym | pmHrphi | pmHrplo | pmGen => simp [isPmCommand]
    | cfgLegal f g p hf hg => simp [hf, hg]
    | cfgIllegal | pushOutOfRange | flushIllegalPadding | flushNonZeroPadding => simp
    | pushOverflows | pushAppends => simp
    | flushOverflows _ hpad => simp [hpad]
    | flushPads | flushPadsNothing | flushStrict => simp [startConversion]
  | illegal w c hw =>
    have hillegal : ∃ c, decode w = .illegal c := ⟨c, hw⟩
    cases hs : s.ctl.cmdErr <;> simp [hs, hillegal]
  | readError off hoff => simpa using fun _ => .inr (.inr hoff)
  | writeError off v hoff => simpa using fun _ => .inr (.inr hoff)
  | read | pop => simp

/-! ### The register views -/

theorem hostRead_fst (r : Reg) (s : State) : (hostRead r s).1 = regValue r s := by
  rw [hostRead, busRead_regOffset]

/-- Fields beside each other add up at their places. -/
theorem toNat_append_add {m n : Nat} (x : BitVec m) (y : BitVec n) : (x ++ y).toNat = x.toNat * 2 ^ n + y.toNat := by
  rw [BitVec.toNat_append, ← Nat.shiftLeft_add_eq_or_of_lt y.isLt, Nat.shiftLeft_eq]

/-- `STATUS` as a number, whatever the queue's length (R46). -/
theorem statusWord_toNat (s : State) :
    (statusWord s).toNat =
      (pmOne s).toNat + 2 * s.ctl.cmdErr.toNat + 2 ^ 2 * s.ctl.ovf.toNat + 2 ^ 3 * s.ctl.accErr.toNat +
        2 ^ 4 * s.ctl.cmdCause.toNat + 2 ^ 8 * s.bc.bcErr.toNat + 2 ^ 12 * (fifoCount s).toNat +
        2 ^ 16 * s.bc.bits.toNat := by
  simp only [statusWord, toNat_append_add, BitVec.toNat_ofBool, BitVec.toNat_ofNat]
  omega

/-- `BC_CFG` as a number (R49). -/
theorem cfgWord_toNat (s : State) :
    (cfgWord s).toNat = s.bc.fromBits.toNat + 2 ^ 4 * s.bc.toBits.toNat + 2 ^ 8 * s.bc.pad.toNat := by
  simp only [cfgWord, toNat_append_add, BitVec.toNat_ofBool, BitVec.toNat_ofNat]
  omega

/-- `BC_ERRINFO` as a number (R52). -/
theorem errinfoWord_toNat (s : State) :
    (errinfoWord s).toNat = s.bc.errIdx.toNat + 2 ^ 16 * s.bc.errVal.toNat := by
  simp only [errinfoWord, toNat_append_add, BitVec.toNat_ofNat]
  omega

/-- `CKSYMp` as a number (R54). -/
theorem cksymWord_toNat (p : Fin 6) (s : State) :
    (cksymWord p s).toNat = s.pm.cksum.toNat / 2 ^ (5 * (5 - p.val)) % 2 ^ 5 := by
  have h31 : (31 : Chk).toNat = mask 5 := rfl
  simp only [cksymWord, BitVec.toNat_setWidth, BitVec.toNat_and, BitVec.toNat_ushiftRight, h31, and_mask,
    Nat.shiftRight_eq_div_pow]
  omega

/-- `VALID` above `DATA` (R53). -/
theorem outEntry_toNat : ∀ e : Byte, (0x100 ||| e.setWidth 32 : Word).toNat = 256 + e.toNat := by decide +kernel

theorem pmOne_toNat (s : State) : (pmOne s).toNat = if s.pm.chk = 1 then 1 else 0 := by
  unfold pmOne
  split
  · rw [‹s.pm.chk = 1›]; rfl
  · rw [beq_false_of_ne ‹_›]; rfl

theorem fifoCount_toNat (s : State) (h : s.bc.fifo.length ≤ 8) : (fifoCount s).toNat = s.bc.fifo.length :=
  Nat.mod_eq_of_lt (by omega)

/-- Settles O13: the read of `BC_OUT`, by what is queued. -/
theorem outputReadPopsTheOldestEntry : Obligations.OutputReadPopsTheOldestEntry := by
  refine ⟨fun s e rest h => ?_, fun s h => hostRead_out_nil h, rfl⟩
  have hr : busRead 0x20 s = _ := hostRead_out_cons h
  obtain rfl : rest = s.bc.fifo.tail := by rw [h]; rfl
  rw [hr]
  exact ⟨outEntry_toNat e, rfl⟩

/-- Settles O14: each view as a number. -/
theorem registersReadTheirFields : Obligations.RegistersReadTheirFields := by
  refine ⟨fun s => ⟨rfl, ?chk, ?cksum, cfgWord_toNat s, ?acc, ?cnt, errinfoWord_toNat s, fun p => ?cksym⟩, rfl⟩
  case chk | cksum | acc | cnt => exact BitVec.toNat_setWidth_of_le (by decide)
  case cksym => exact (congrArg BitVec.toNat (hostRead_fst (.cksym p) s)).trans (cksymWord_toNat p s)

/-- Settles O15: with at most 8 entries `FIFO_COUNT` is the queue's length. -/
theorem statusReadsEveryFlag : Obligations.StatusReadsEveryFlag := by
  refine ⟨fun s h => ⟨?_, rfl⟩, rfl⟩
  rw [← pmOne_toNat, ← fifoCount_toNat s h]
  exact statusWord_toNat s

/-! ### Reserved bits -/

theorem getLsbD_of_toNat_lt {w n k : Nat} {x : BitVec w} (hx : x.toNat < 2 ^ n) (hk : n ≤ k) : x.getLsbD k = false :=
  Nat.testBit_eq_false_of_lt (hx.trans_le (Nat.pow_le_pow_right (by decide) hk))

/-- A field alone in its register leaves the bits above it 0. -/
theorem getLsbD_setWidth_of_le {w n k : Nat} {x : BitVec w} (hk : w ≤ k) : (x.setWidth n).getLsbD k = false := by
  rw [BitVec.getLsbD_setWidth, BitVec.getLsbD_of_ge x k hk, Bool.and_false]

/-- The gaps between the fields of `STATUS`, and everything above `BC_BITS` (R46, R56). -/
theorem statusWord_reserved (s : State) (k : Nat) (hk : k = 7 ∨ k = 11 ∨ 19 ≤ k) :
    (statusWord s).getLsbD k = false := by
  have h := statusWord_toNat s
  have := Bool.toNat_le (pmOne s)
  have := Bool.toNat_le s.ctl.cmdErr
  have := Bool.toNat_le s.ctl.ovf
  have := Bool.toNat_le s.ctl.accErr
  rcases hk with rfl | rfl | hk
  · rw [← BitVec.testBit_toNat, Nat.testBit_eq_decide_div_mod_eq, decide_eq_false_iff_not]
    omega
  · rw [← BitVec.testBit_toNat, Nat.testBit_eq_decide_div_mod_eq, decide_eq_false_iff_not]
    omega
  · exact getLsbD_of_toNat_lt (n := 19) (by omega) hk

theorem cfgWord_lt (s : State) : (cfgWord s).toNat < 2 ^ 9 := by
  have := Bool.toNat_le s.bc.pad
  rw [cfgWord_toNat]
  omega

theorem errinfoWord_lt (s : State) : (errinfoWord s).toNat < 2 ^ 24 := by
  rw [errinfoWord_toNat]
  omega

theorem outWord_lt (s : State) : (outWord s).toNat < 2 ^ 9 := by
  unfold outWord
  split
  · decide
  · rw [outEntry_toNat]; omega

theorem cksymWord_lt (p : Fin 6) (s : State) : (cksymWord p s).toNat < 2 ^ 5 := by
  rw [cksymWord_toNat]
  exact Nat.mod_lt _ (by decide)

/-- Settles O16: every view stays below the first bit no field holds, `STATUS` has its two gaps, and a write anywhere but
to `CMD` is an access error. -/
theorem reservedBitsReadZero : Obligations.ReservedBitsReadZero := by
  refine ⟨fun s => ⟨statusWord_reserved s, ?pm, ?cfgAndOut, ?acc, ?cnt, ?errinfo, ?cksym⟩, ?write⟩
  case pm => exact fun k hk => ⟨getLsbD_setWidth_of_le hk, getLsbD_setWidth_of_le hk⟩
  case cfgAndOut => exact fun k hk => ⟨getLsbD_of_toNat_lt (cfgWord_lt s) hk, getLsbD_of_toNat_lt (outWord_lt s) hk⟩
  case acc | cnt => exact fun k hk => getLsbD_setWidth_of_le hk
  case errinfo => exact fun k hk => getLsbD_of_toNat_lt (errinfoWord_lt s) hk
  case cksym =>
    intro p k hk
    exact (congrArg (·.getLsbD k) (hostRead_fst (.cksym p) s)).trans (getLsbD_of_toNat_lt (cksymWord_lt p s) hk)
  case write =>
    intro off v s t hoff h
    cases (busWrite_of_ne_zero hoff v s).symm.trans h
    exact ⟨rfl, rfl, rfl, rfl, rfl⟩

end Sys2Proof.Proofs
end

section
/-! PROOFS. The register space (spec 20_memory.md): which accesses are erroneous, what a read leaves behind, and what a
step does with a transaction. -/

namespace Sys2Proof.Proofs

open Sys2Proof Sys2Proof.Machine Sys2Proof.Laws

/-! ### Offsets -/

/-- The offsets that select no register are exactly those of an access error (R60, R62, R63). -/
theorem regAt_eq_none_iff (off : Offset) : regAt off = none ↔ off.toNat % 4 ≠ 0 ∨ off = 0x3C := by
  refine ⟨offset_of_regAt_none off, ?_⟩
  revert off
  decide

/-- Each register has an offset of its own (R45). -/
theorem regOffset_injective : Function.Injective regOffset := fun r r' h =>
  Option.some_injective _ (by rw [← regAt_regOffset r, h, regAt_regOffset])

theorem regOffset_eq_out_iff (r : Reg) : regOffset r = 0x20 ↔ r = .bcOut :=
  regOffset_injective.eq_iff (b := .bcOut)

theorem regOffset_not_erroneous (r : Reg) : ¬((regOffset r).toNat % 4 ≠ 0 ∨ regOffset r = 0x3C) := by
  rw [← regAt_eq_none_iff, regAt_regOffset]
  exact Option.some_ne_none r

/-! ### Reads -/

/-- What the host has read is in no register's view (R45 to R55, R305). -/
theorem regValue_logRead (r : Reg) (v : Word) (s : State) : regValue r (logRead v s) = regValue r s := by
  cases r <;> rfl

/-- A register's read leaves its own value as it was, unless it takes an entry off (R66). -/
theorem busRead_regOffset_twice {r : Reg} {s : State} (h : r ≠ .bcOut ∨ s.bc.fifo = []) :
    (busRead (regOffset r) (busRead (regOffset r) s).2).1 = (busRead (regOffset r) s).1 := by
  have hkeep : (if r = .bcOut then popFifo s else s) = s := by
    split
    · exact popFifo_of_empty s (h.resolve_left (not_not_intro ‹_›))
    · rfl
  simp only [busRead_regOffset, hkeep, regValue_logRead]

/-- Settles O12: a read selects no register and records the access error, or it is a register's, and then only that of
`BC_OUT` takes an entry off. -/
theorem onlyAnOutputReadHasASideEffect : Obligations.OnlyAnOutputReadHasASideEffect := by
  intro off s
  rcases hr : regAt off with _ | r
  · have hoff := (regAt_eq_none_iff off).1 hr
    have hout : off ≠ 0x20 := by rintro rfl; cases hr
    simp only [busRead_of_regAt_none hr, if_pos hoff, if_neg hout]
    exact ⟨rfl, rfl, rfl, rfl, rfl, fun _ => trivial⟩
  · obtain rfl := eq_regOffset_of_regAt hr
    have htwice := busRead_regOffset_twice (r := r) (s := s)
    simp only [if_neg (regOffset_not_erroneous r), ne_eq, regOffset_eq_out_iff, List.drop_one]
    by_cases ho : r = .bcOut
    · subst ho
      exact ⟨rfl, rfl, rfl, rfl, rfl, htwice⟩
    · have hread : (busRead (regOffset r) s).2 = logRead (busRead (regOffset r) s).1 s := by
        rw [busRead_regOffset, if_neg ho]
      refine ⟨?_, ?_, ?_, ?_, ?_, htwice⟩ <;> simp [hread, ho]

/-! ### Access errors -/

/-- Settles O11: an erroneous access selects no register, and only the slot at 0 takes a write. -/
theorem erroneousAccessesSetAccErrOnly : Obligations.ErroneousAccessesSetAccErrOnly := by
  refine fun off v s => ⟨fun hoff => ?_, fun _ hoff => busWrite_of_ne_zero hoff v s⟩
  have hr : regAt off = none := (regAt_eq_none_iff off).2 hoff
  have hcmd : off ≠ 0x00 := by rintro rfl; cases hr
  rw [perform, busRead_of_regAt_none hr]
  exact ⟨rfl, rfl, busWrite_of_ne_zero hcmd v s⟩

/-! ### Steps -/

/-- A command's word decodes to it: the upper half is 0, the opcode is the row's, and the operand stays below the reserved
bits (R97, R99). -/
theorem decode_encode (i : Instr) : decode (encode i) = .command i := by
  cases i with
  | nop | pmInit | pmGen | bcFlush | clrerr | reset => rfl
  | pmSym x => revert x; decide +kernel
  | pmHrphi c | pmHrplo c | bcPush c => revert c; decide +kernel
  | bcCfg f g p => revert f g p; decide +kernel

/-- A step performs the front transaction (R71). -/
theorem step_of_pending {s : State} {t : Txn} {ts : List Txn} (h : s.pending = t :: ts) :
    step s = perform t { s with pending := ts } := by
  rw [step, h]

theorem step_of_pending_nil {s : State} (h : s.pending = []) : step s = .next s := by
  rw [step, h]

/-- The step that `withFetchWord` prepares writes the word to `CMD` (R90). -/
theorem step_withFetchWord (s : State) (w : Word) : step (s.withFetchWord 32 w.toNat) = writeCmd w s := by
  rw [State.withFetchWord, Nat.mod_eq_of_lt w.isLt, BitVec.ofNat_toNat, BitVec.setWidth_eq, step_of_pending rfl]
  exact perform_write_zero w s

/-- Settles O9: a step performs the front transaction, and a `CMD` write does what its word decodes to. -/
theorem stepRunsTheDecodedCommand : Obligations.StepRunsTheDecodedCommand := by
  refine ⟨fun s w ts i hp hd => ?command, fun s w ts c hp hd => ?illegal, fun s t ts => step_of_pending,
    fun s => step_of_pending_nil, fun s i => ?fetch⟩
  case command => rw [step_of_pending hp, perform_write_zero, writeCmd_command hd]
  case illegal => rw [step_of_pending hp, perform_write_zero, writeCmd_illegal hd]
  case fetch => rw [step_withFetchWord, writeCmd_command (decode_encode i)]

end Sys2Proof.Proofs
end

section
/-! PROOFS. The encoding (spec 30_encoding.md): a command's word and its opcode and operand bits as numbers, the rows of
the opcode map, illegal words, and the assembler. -/

namespace Sys2Proof.Proofs

open Sys2Proof Sys2Proof.Machine Sys2Proof.Laws

/-! ### Words as numbers -/

/-- An operand sits beside the opcode, so its word is a sum. -/
theorem or_setWidth_toNat {n k : Nat} (m : Word) (x : BitVec n) (hn : n ≤ k) (hk : k ≤ 32) (hm : 2 ^ k ∣ m.toNat) :
    (m ||| x.setWidth 32).toNat = m.toNat + x.toNat := by
  obtain ⟨a, ha⟩ := hm
  have hx : x.toNat < 2 ^ k := x.isLt.trans_le (Nat.pow_le_pow_right two_pos hn)
  have hx32 : x.toNat < 2 ^ 32 := hx.trans_le (Nat.pow_le_pow_right two_pos hk)
  rw [BitVec.toNat_or, BitVec.toNat_setWidth, Nat.mod_eq_of_lt hx32, ha, Nat.two_pow_add_eq_or_of_lt hx]

theorem encode_pmSym_toNat (x : Symbol) : (encode (.pmSym x)).toNat = 0x2000 + x.toNat :=
  or_setWidth_toNat 0x2000 x le_rfl (by decide) (by decide)

theorem encode_pmHrphi_toNat (c : Byte) : (encode (.pmHrphi c)).toNat = 0x3000 + c.toNat :=
  or_setWidth_toNat 0x3000 c le_rfl (by decide) (by decide)

theorem encode_pmHrplo_toNat (c : Byte) : (encode (.pmHrplo c)).toNat = 0x4000 + c.toNat :=
  or_setWidth_toNat 0x4000 c le_rfl (by decide) (by decide)

theorem encode_bcPush_toNat (v : Byte) : (encode (.bcPush v)).toNat = 0x9000 + v.toNat :=
  or_setWidth_toNat 0x9000 v le_rfl (by decide) (by decide)

/-- `PAD` is bit 8, `TO` bits 7 to 4 and `FROM` bits 3 to 0 (R91). -/
theorem encode_bcCfg_toNat (f t : BitVec 4) (p : Bool) :
    (encode (.bcCfg f t p)).toNat = 0x8000 + 256 * p.toNat + 16 * t.toNat + f.toNat := by
  revert f t p
  decide +kernel

/-- The upper half of a word is 0 iff the word is below `2^16` (R96). -/
theorem upper_eq_zero_iff (w : Word) : w.extractLsb' 16 16 = 0 ↔ w.toNat < 2 ^ 16 := by
  rw [← BitVec.toNat_inj, BitVec.extractLsb'_toNat, Nat.shiftRight_eq_div_pow]
  have := w.isLt
  simp only [BitVec.ofNat_eq_ofNat, BitVec.toNat_zero]
  omega

theorem opcode_toNat {w : Word} (h : w.toNat < 2 ^ 16) : (w.extractLsb' 12 4).toNat = w.toNat / 4096 := by
  rw [BitVec.extractLsb'_toNat, Nat.shiftRight_eq_div_pow]
  omega

theorem operand_toNat (w : Word) : (w.extractLsb' 0 12).toNat = w.toNat % 4096 := by
  rw [BitVec.extractLsb'_toNat, Nat.shiftRight_zero]

/-! ### The reserved operand bits -/

/-- How many operand bits a format has, from bit 0 up (R91). -/
def operandWidth : Format → Nat
  | .N => 0
  | .S => 5
  | .B => 8
  | .C => 9

/-- `RESV` is every bit above the operand (R97). -/
theorem reservedBits_getLsbD (f : Format) (k : Fin 12) : (reservedBits f).getLsbD k = decide (operandWidth f ≤ k) := by
  cases f <;> revert k <;> decide

/-- No reserved operand bit is set iff the operand fits its format (R95). -/
theorem and_reservedBits_eq_zero_iff (f : Format) (x : BitVec 12) :
    x &&& reservedBits f = 0 ↔ x.toNat < 2 ^ operandWidth f := by
  constructor
  · intro h
    refine Nat.lt_pow_two_of_testBit _ fun k hk => ?_
    by_cases hk12 : k < 12
    · have hbit := congrArg (·.getLsbD k) h
      rw [BitVec.testBit_toNat]
      simpa [reservedBits_getLsbD f ⟨k, hk12⟩, hk] using hbit
    · exact BitVec.getLsbD_of_ge x k (Nat.le_of_not_lt hk12)
  · intro h
    refine BitVec.eq_of_getLsbD_eq fun k hk => ?_
    by_cases hf : operandWidth f ≤ k
    · simp [getLsbD_of_toNat_lt h hf]
    · simp [reservedBits_getLsbD f ⟨k, hk⟩, hf]

/-! ### The decoder's answers on numbers -/

/-- The opcodes of a format (R91, R93). -/
def opcodesOf : Format → List Nat
  | .N => [0x0, 0x1, 0x5, 0xA, 0xE, 0xF]
  | .S => [0x2]
  | .B => [0x3, 0x4, 0x9]
  | .C => [0x8]

theorem formatOf_eq_some_iff (op : BitVec 4) (f : Format) : formatOf op = some f ↔ op.toNat ∈ opcodesOf f := by
  cases f <;> revert op <;> decide

/-- An opcode with a format has a command for every operand (R93). -/
theorem exists_commandOf {op : BitVec 4} {f : Format} (hf : formatOf op = some f) (x : BitVec 12) :
    ∃ i, commandOf op x = some i := by
  rw [← Option.isSome_iff_exists, ← formatOf_isSome_iff, hf, Option.isSome_some]

/-- A word below `2^16` whose opcode has a format and whose operand does not fit it (R95). -/
theorem decode_reservedOperand {w : Word} {f : Format} (h : w.extractLsb' 16 16 = 0)
    (hf : formatOf (w.extractLsb' 12 4) = some f) (hr : w.extractLsb' 0 12 &&& reservedBits f ≠ 0) :
    decode w = .illegal .reservedOperandBits := by
  obtain ⟨i, hi⟩ := exists_commandOf hf (w.extractLsb' 0 12)
  rw [decode, if_neg (not_not.2 h), hf, hi]
  exact if_pos hr

/-- Everything a word that decodes to a command has passed (R97). -/
theorem of_decode_eq_command {w : Word} {i : Instr} (h : decode w = .command i) :
    ∃ f, w.toNat < 2 ^ 16 ∧ formatOf (w.extractLsb' 12 4) = some f ∧
      commandOf (w.extractLsb' 12 4) (w.extractLsb' 0 12) = some i ∧ (w.extractLsb' 0 12).toNat < 2 ^ operandWidth f := by
  unfold decode at h
  split at h
  · cases h
  next hu =>
  split at h
  next f j hf hj =>
    split at h
    · cases h
    next hr =>
      obtain rfl : j = i := by simpa using h
      exact ⟨f, (upper_eq_zero_iff w).1 (not_not.1 hu), hf, hj, (and_reservedBits_eq_zero_iff f _).1 (not_not.1 hr)⟩
  · cases h

/-! ### Encode of decode -/

/-- A field that holds the whole operand is the operand. -/
theorem extractLsb'_zero_toNat {n k : Nat} {x : BitVec n} (hx : x.toNat < 2 ^ k) :
    (x.extractLsb' 0 k).toNat = x.toNat := by
  rw [BitVec.extractLsb'_toNat, Nat.shiftRight_zero, Nat.mod_eq_of_lt hx]

/-- The fields of a `BC_CFG` operand make up the operand (R91). -/
theorem cfgFields_toNat {x : BitVec 12} (hx : x.toNat < 2 ^ 9) :
    256 * (x.getLsbD 8).toNat + 16 * (x.extractLsb' 4 4).toNat + (x.extractLsb' 0 4).toNat = x.toNat := by
  rw [BitVec.getLsbD, Nat.toNat_testBit, BitVec.extractLsb'_toNat, BitVec.extractLsb'_toNat, Nat.shiftRight_eq_div_pow,
    Nat.shiftRight_zero]
  omega

/-- A command with its operand in its format's bits has the word of that opcode and operand (R91, R93). -/
theorem encode_toNat_of_commandOf {op : BitVec 4} {x : BitVec 12} {f : Format} {i : Instr} (hf : formatOf op = some f)
    (hc : commandOf op x = some i) (hx : x.toNat < 2 ^ operandWidth f) :
    (encode i).toNat = 4096 * op.toNat + x.toNat := by
  rw [formatOf_eq_some_iff] at hf
  unfold commandOf at hc
  generalize op.toNat = n at *
  cases f <;> simp only [opcodesOf, List.mem_cons, List.not_mem_nil, or_false] at hf <;> dsimp only [operandWidth] at hx
  case N =>
    rw [Nat.lt_one_iff.1 hx]
    rcases hf with rfl | rfl | rfl | rfl | rfl | rfl <;> cases hc <;> rfl
  case S =>
    subst hf
    cases hc
    rw [encode_pmSym_toNat, extractLsb'_zero_toNat hx]
  case B =>
    rcases hf with rfl | rfl | rfl <;> cases hc
    · rw [encode_pmHrphi_toNat, extractLsb'_zero_toNat hx]
    · rw [encode_pmHrplo_toNat, extractLsb'_zero_toNat hx]
    · rw [encode_bcPush_toNat, extractLsb'_zero_toNat hx]
  case C =>
    subst hf
    cases hc
    rw [encode_bcCfg_toNat, ← cfgFields_toNat hx]
    omega

/-- A legal word is its command's (R93). -/
theorem encode_of_decode {w : Word} {i : Instr} (h : decode w = .command i) : encode i = w := by
  obtain ⟨f, hw, hf, hc, hx⟩ := of_decode_eq_command h
  apply BitVec.eq_of_toNat_eq
  rw [encode_toNat_of_commandOf hf hc hx, opcode_toNat hw, operand_toNat, Nat.div_add_mod]

/-- Settles O4: command by command. -/
theorem decodeOfEncodeIsTheCommand : Obligations.DecodeOfEncodeIsTheCommand := decode_encode

/-- Settles O5: a word is its opcode beside its operand, and a legal word has nothing else in it. -/
theorem encodeOfDecodeIsTheWord : Obligations.EncodeOfDecodeIsTheWord := fun _ _ => encode_of_decode

/-- Settles O3: each word is the encoding of its command. -/
theorem writtenOutWordsDecode : Obligations.WrittenOutWordsDecode :=
  ⟨decode_encode .nop, decode_encode .pmInit, decode_encode (.pmSym 31), decode_encode (.pmHrphi 0x62),
    decode_encode (.pmHrplo 0x63), decode_encode .pmGen, decode_encode (.bcCfg 5 8 false), decode_encode (.bcPush 0xD6),
    decode_encode .bcFlush, decode_encode .clrerr, decode_encode .reset⟩

/-! ### The rows of the opcode map -/

/-- Every command's word lies in the row with its mnemonic (R93). -/
theorem encodesToItsRow (i : Instr) : EncodesToItsRow.Statement i := by
  cases i with
  | nop => exact EncodesToItsRow.nop
  | pmInit => exact EncodesToItsRow.pmInit
  | pmSym x => exact EncodesToItsRow.pmSym x
  | pmHrphi c => exact EncodesToItsRow.pmHrphi c
  | pmHrplo c => exact EncodesToItsRow.pmHrplo c
  | pmGen => exact EncodesToItsRow.pmGen
  | bcCfg f t p => exact EncodesToItsRow.bcCfg f t p
  | bcPush v => exact EncodesToItsRow.bcPush v
  | bcFlush => exact EncodesToItsRow.bcFlush
  | clrerr => exact EncodesToItsRow.clrerr
  | reset => exact EncodesToItsRow.reset

/-- The bits under a mask of the high bits, with the bits below them, make up the word. -/
theorem toNat_of_and_eq {w m : Word} {k : Nat} (h : w &&& BitVec.allOnes 32 <<< k = m) :
    w.toNat = m.toNat + w.toNat % 2 ^ k := by
  rw [← BitVec.shiftLeft_ushiftRight] at h
  have hle : w.toNat / 2 ^ k * 2 ^ k < 2 ^ 32 := (Nat.div_mul_le_self _ _).trans_lt w.isLt
  rw [← h, BitVec.toNat_shiftLeft, BitVec.toNat_ushiftRight, Nat.shiftRight_eq_div_pow, Nat.shiftLeft_eq,
    Nat.mod_eq_of_lt hle, Nat.div_add_mod']

/-- A row whose match is an opcode's place, and whose mask is all but that opcode's operand bits, selects only words of the
opcode's command. -/
theorem encode_of_and_eq {op : BitVec 4} {f : Format} {i : Instr} {w m : Word} (hf : formatOf op = some f)
    (hm : m.toNat = 4096 * op.toNat) (hc : commandOf op (w.extractLsb' 0 12) = some i)
    (h : w &&& BitVec.allOnes 32 <<< operandWidth f = m) : encode i = w := by
  have hw := toNat_of_and_eq h
  have hlt : w.toNat % 2 ^ operandWidth f < 2 ^ operandWidth f := Nat.mod_lt _ (by positivity)
  have h12 : 2 ^ operandWidth f ≤ 4096 := by cases f <;> decide
  have hx : (w.extractLsb' 0 12).toNat = w.toNat % 2 ^ operandWidth f := by
    rw [operand_toNat]
    omega
  apply BitVec.eq_of_toNat_eq
  rw [encode_toNat_of_commandOf hf hc (hx ▸ hlt), hx, ← hm, ← hw]

/-- A word that a row selects is the word of a command with the row's mnemonic (R93). -/
theorem exists_encode_of_selects {r : OpcodeRow} (hr : r ∈ opcodeTable) {w : Word} (h : r.selects w = true) :
    ∃ i, encode i = w ∧ r.mnemonic = mnemonicOf i := by
  have h := eq_of_beq h
  simp only [opcodeTable, List.mem_cons, List.not_mem_nil, or_false] at hr
  rcases hr with rfl | rfl | rfl | rfl | rfl | rfl | rfl | rfl | rfl | rfl | rfl
  · exact ⟨_, encode_of_and_eq (op := 0x0) rfl rfl rfl h, rfl⟩
  · exact ⟨_, encode_of_and_eq (op := 0x1) rfl rfl rfl h, rfl⟩
  · exact ⟨_, encode_of_and_eq (op := 0x2) rfl rfl rfl h, rfl⟩
  · exact ⟨_, encode_of_and_eq (op := 0x3) rfl rfl rfl h, rfl⟩
  · exact ⟨_, encode_of_and_eq (op := 0x4) rfl rfl rfl h, rfl⟩
  · exact ⟨_, encode_of_and_eq (op := 0x5) rfl rfl rfl h, rfl⟩
  · exact ⟨_, encode_of_and_eq (op := 0x8) rfl rfl rfl h, rfl⟩
  · exact ⟨_, encode_of_and_eq (op := 0x9) rfl rfl rfl h, rfl⟩
  · exact ⟨_, encode_of_and_eq (op := 0xA) rfl rfl rfl h, rfl⟩
  · exact ⟨_, encode_of_and_eq (op := 0xE) rfl rfl rfl h, rfl⟩
  · exact ⟨_, encode_of_and_eq (op := 0xF) rfl rfl rfl h, rfl⟩

/-- No two rows have one mnemonic (R93). -/
theorem opcodeTable_mnemonics_distinct : opcodeTable.Pairwise fun r q => r.mnemonic ≠ q.mnemonic := by decide

/-- Settles O6: a command's word lies in the row with its mnemonic, and a row selects nothing but words of its command. -/
theorem legalWordsAreTheRowsOfTheOpcodeMap : Obligations.LegalWordsAreTheRowsOfTheOpcodeMap := by
  have named : ∀ w i, decode w = .command i → ∀ r ∈ opcodeTable, r.selects w = true → r.mnemonic = mnemonicOf i := by
    intro w i hd r hr h
    obtain ⟨j, rfl, hj⟩ := exists_encode_of_selects hr h
    rwa [← Decoded.command.inj ((decode_encode j).symm.trans hd)]
  refine ⟨fun w => ⟨?selected, ?legal⟩, named, ?disjoint⟩
  case selected =>
    rintro ⟨i, hd⟩
    obtain ⟨r, hr, -, h⟩ := encodesToItsRow i
    exact ⟨r, hr, encode_of_decode hd ▸ h⟩
  case legal =>
    rintro ⟨r, hr, h⟩
    obtain ⟨i, rfl, -⟩ := exists_encode_of_selects hr h
    exact ⟨i, decode_encode i⟩
  case disjoint =>
    refine opcodeTable_mnemonics_distinct.imp_of_mem fun {r q} hr hq hne w ⟨hrw, hqw⟩ => hne ?_
    obtain ⟨i, rfl, hi⟩ := exists_encode_of_selects hr hrw
    rw [hi, named _ i (decode_encode i) q hq hqw]

/-! ### Illegal words -/

/-- The reserved opcodes (R94). -/
theorem formatOf_eq_none_iff (op : BitVec 4) : formatOf op = none ↔ op.toNat ∈ [0x6, 0x7, 0xB, 0xC, 0xD] := by
  revert op
  decide

/-- An operand does not fit its opcode's format iff one of the formats' conditions says so (R95). -/
theorem misfit_iff {opcode : BitVec 4} {f : Format} {op low : Nat} (hf : formatOf opcode = some f)
    (hop : opcode.toNat = op) :
    2 ^ operandWidth f ≤ low ↔
      (op ∈ [0x0, 0x1, 0x5, 0xA, 0xE, 0xF] ∧ low ≠ 0) ∨ (op = 0x2 ∧ 2 ^ 5 ≤ low) ∨ (op ∈ [0x3, 0x4, 0x9] ∧ 2 ^ 8 ≤ low) ∨
        (op = 0x8 ∧ 2 ^ 9 ≤ low) := by
  rw [formatOf_eq_some_iff, hop] at hf
  cases f <;> simp only [opcodesOf, operandWidth, List.mem_cons, List.not_mem_nil, or_false] at hf ⊢ <;> omega

/-- Settles O7: the checks of R97 in order, each as a bound or a list of opcodes. -/
theorem illegalWordsRecordTheirCauseOnly : Obligations.IllegalWordsRecordTheirCauseOnly := by
  intro w s op low illegal
  rw [perform_write_zero]
  split
  case isTrue hw => exact writeCmd_illegal (decode_upper (mt (upper_eq_zero_iff w).1 (Nat.not_lt.2 hw))) s
  case isFalse hw =>
  replace hw : w.toNat < 2 ^ 16 := Nat.not_le.1 hw
  have hu := (upper_eq_zero_iff w).2 hw
  have hop : (w.extractLsb' 12 4).toNat = op := opcode_toNat hw
  have hlow : (w.extractLsb' 0 12).toNat = low := operand_toNat w
  split
  case isTrue hres =>
    rw [← hop, ← formatOf_eq_none_iff] at hres
    exact writeCmd_illegal (decode_reserved hu hres) s
  case isFalse hdef =>
  rw [← hop, ← formatOf_eq_none_iff, ← ne_eq, Option.ne_none_iff_exists'] at hdef
  obtain ⟨f, hf⟩ := hdef
  split
  case isTrue hmisfit =>
    rw [← misfit_iff hf hop, ← hlow, ← Nat.not_lt, ← and_reservedBits_eq_zero_iff] at hmisfit
    exact writeCmd_illegal (decode_reservedOperand hu hf hmisfit) s
  case isFalse hfit =>
    rw [← misfit_iff hf hop, ← hlow, Nat.not_le, ← and_reservedBits_eq_zero_iff] at hfit
    obtain ⟨i, hi⟩ := exists_commandOf hf (w.extractLsb' 0 12)
    have hd := decode_command hu hf hi hfit
    exact ⟨i, hd, writeCmd_command hd s⟩

/-! ### The assembler -/

/-- A command's write, with its word as a number (R99). -/
theorem cmdTxn_eq {i : Instr} {n : Nat} (h : (encode i).toNat = n) : cmdTxn i = .memWrite 0x00 (BitVec.ofNat 32 n) := by
  rw [← h, BitVec.ofNat_toNat, BitVec.setWidth_eq]
  rfl

theorem cmdTxn_pmSym {n : Nat} (h : n ≤ 31) :
    cmdTxn (.pmSym (BitVec.ofNat 5 n)) = .memWrite 0x00 (BitVec.ofNat 32 (0x2000 + n)) :=
  cmdTxn_eq (by rw [encode_pmSym_toNat, BitVec.toNat_ofNat, Nat.mod_eq_of_lt (Nat.lt_succ_of_le h)])

theorem cmdTxn_pmHrphi {n : Nat} (h : n ≤ 255) :
    cmdTxn (.pmHrphi (BitVec.ofNat 8 n)) = .memWrite 0x00 (BitVec.ofNat 32 (0x3000 + n)) :=
  cmdTxn_eq (by rw [encode_pmHrphi_toNat, BitVec.toNat_ofNat, Nat.mod_eq_of_lt (Nat.lt_succ_of_le h)])

theorem cmdTxn_pmHrplo {n : Nat} (h : n ≤ 255) :
    cmdTxn (.pmHrplo (BitVec.ofNat 8 n)) = .memWrite 0x00 (BitVec.ofNat 32 (0x4000 + n)) :=
  cmdTxn_eq (by rw [encode_pmHrplo_toNat, BitVec.toNat_ofNat, Nat.mod_eq_of_lt (Nat.lt_succ_of_le h)])

theorem cmdTxn_bcPush {n : Nat} (h : n ≤ 255) :
    cmdTxn (.bcPush (BitVec.ofNat 8 n)) = .memWrite 0x00 (BitVec.ofNat 32 (0x9000 + n)) :=
  cmdTxn_eq (by rw [encode_bcPush_toNat, BitVec.toNat_ofNat, Nat.mod_eq_of_lt (Nat.lt_succ_of_le h)])

theorem cmdTxn_bcCfg {f t p : Nat} (hf : f ≤ 15) (ht : t ≤ 15) (hp : p ≤ 1) :
    cmdTxn (.bcCfg (BitVec.ofNat 4 f) (BitVec.ofNat 4 t) (p == 1)) =
      .memWrite 0x00 (BitVec.ofNat 32 (0x8000 + 256 * p + 16 * t + f)) := by
  have hpad : (p == 1).toNat = p := by interval_cases p <;> rfl
  refine cmdTxn_eq ?_
  rw [encode_bcCfg_toNat, BitVec.toNat_ofNat, BitVec.toNat_ofNat, Nat.mod_eq_of_lt (Nat.lt_succ_of_le hf),
    Nat.mod_eq_of_lt (Nat.lt_succ_of_le ht), hpad]

/-- A line assembles to its transactions when its operands are in range, and is refused otherwise (R99). -/
theorem assemble_eq {l : AsmLine} {P : Prop} [Decidable P] {ts : List Txn} (hwf : l.wf = true ↔ P)
    (h : P → expandLine l = ts) : assemble l = if P then some ts else none := by
  by_cases hP : P
  · rw [assemble, if_pos (hwf.2 hP), if_pos hP, h hP]
  · rw [assemble, if_neg (mt hwf.1 hP), if_neg hP]

/-- The lines of `pm.hrp` stand for one write per character, twice, around the separator (R100). -/
theorem expandLine_pmHrp {h : List Nat} (hh : ∀ c ∈ h, c ≤ 255) :
    expandLine (.pmHrp h) =
      h.map (fun c => .memWrite 0x00 (BitVec.ofNat 32 (0x3000 + c))) ++ [.memWrite 0x00 (BitVec.ofNat 32 0x2000)] ++
        h.map fun c => .memWrite 0x00 (BitVec.ofNat 32 (0x4000 + c)) := by
  rw [← List.map_congr_left fun c hc => cmdTxn_pmHrphi (hh c hc),
    ← List.map_congr_left fun c hc => cmdTxn_pmHrplo (hh c hc)]
  have hsep : cmdTxn (.pmSym 0#5) = .memWrite 0x00 (BitVec.ofNat 32 0x2000) := rfl
  simp [expandLine, pmHrp, hsep, Function.comp_def]

/-- Settles O8: line by line, the range check and the transactions' words. -/
theorem assemblerEncodesOrRefuses : Obligations.AssemblerEncodesOrRefuses := by
  unfold Obligations.AssemblerEncodesOrRefuses
  intro word
  refine ⟨?pmSym, ?pmHrphi, ?pmHrplo, ?bcPush, ?bcCfg, ?wr, ?rd, ?pmHrp, ?pmData, ?bcBytes, ?plain, rfl, fun p => rfl, rfl⟩
  case pmSym => exact fun n => assemble_eq (by simp [AsmLine.wf, symOk]) fun h => congrArg ([·]) (cmdTxn_pmSym h)
  case pmHrphi => exact fun n => assemble_eq (by simp [AsmLine.wf, byteOk]) fun h => congrArg ([·]) (cmdTxn_pmHrphi h)
  case pmHrplo => exact fun n => assemble_eq (by simp [AsmLine.wf, byteOk]) fun h => congrArg ([·]) (cmdTxn_pmHrplo h)
  case bcPush => exact fun n => assemble_eq (by simp [AsmLine.wf, byteOk]) fun h => congrArg ([·]) (cmdTxn_bcPush h)
  case bcCfg =>
    exact fun f t p => assemble_eq (by simp [AsmLine.wf, widthOk, padOk, and_assoc])
      fun ⟨hf, ht, hp⟩ => congrArg ([·]) (cmdTxn_bcCfg hf ht hp)
  case wr => exact fun off v => assemble_eq (by simp [AsmLine.wf, offsetOk, wordOk]) fun _ => rfl
  case rd => exact fun off => assemble_eq (by simp [AsmLine.wf, offsetOk]) fun _ => rfl
  case pmHrp => exact fun h => assemble_eq (by simp [AsmLine.wf, byteOk]) expandLine_pmHrp
  case pmData =>
    refine fun ss => assemble_eq (by simp [AsmLine.wf, symOk]) fun h => ?_
    rw [← List.map_congr_left fun x hx => cmdTxn_pmSym (h x hx)]
    simp [expandLine, pmData]
  case bcBytes =>
    exact fun vs => assemble_eq (by simp [AsmLine.wf, byteOk])
      fun h => List.map_congr_left fun v hv => cmdTxn_bcPush (h v hv)
  case plain => rfl

end Sys2Proof.Proofs
end

section
/-! PROOFS. The PM unit (spec 40_checksum.md R121 to R129): the step on numbers and as an injective linear map, the PM
commands one by one, and the polymod that a stream of symbols leaves. -/

namespace Sys2Proof.Proofs

open Sys2Proof Sys2Proof.Machine Sys2Proof.Laws

/-! ### The step on numbers -/

theorem gen_toNat (i : Nat) : (Config.gen.getD i 0).toNat = Ref.gen.getD i 0 :=
  (List.getD_map Config.gen 0 BitVec.toNat).symm

theorem foldGen_toNat (top : BitVec 5) (r : Chk) (i : Nat) :
    (foldGen top r i).toNat = if top.toNat.testBit i then r.toNat ^^^ Ref.gen.getD i 0 else r.toNat := by
  rw [foldGen, BitVec.testBit_toNat, ← gen_toNat]
  split <;> rfl

/-- The 25 bits below the top leave room for the symbol (R121). -/
theorem shiftIn_toNat (c : Chk) (x : Symbol) :
    ((c &&& 0x1FFFFFF) <<< 5 ||| x.setWidth 30).toNat = (c.toNat &&& 0x1FFFFFF) <<< 5 ||| x.toNat := by
  have hlow : (c.toNat &&& 0x1FFFFFF) <<< 5 < 2 ^ 30 := by
    have : c.toNat &&& 0x1FFFFFF ≤ 0x1FFFFFF := Nat.and_le_right
    rw [Nat.shiftLeft_eq]
    omega
  rw [BitVec.toNat_or, BitVec.toNat_shiftLeft, BitVec.toNat_setWidth_of_le (by decide)]
  exact congrArg (· ||| x.toNat) (Nat.mod_eq_of_lt hlow)

theorem top_toNat (c : Chk) : (c.extractLsb' 25 5).toNat = c.toNat >>> 25 := by
  rw [BitVec.extractLsb'_toNat, Nat.shiftRight_eq_div_pow]
  omega

/-- The block's step is the source's (R121). -/
theorem pmstep_toNat (c : Chk) (x : Symbol) : (pmstep c x).toNat = Ref.pmStep c.toNat x.toNat := by
  rw [Ref.pmStep, ← shiftIn_toNat, ← top_toNat]
  exact (List.foldl_hom BitVec.toNat fun r i => (foldGen_toNat _ r i).symm).symm

/-- Settles O19: a number below `2^30` is an accumulator's, so the source's step stays where the block's does. -/
theorem polymodStepIsTheSourcesAndStaysInWidth : Obligations.PolymodStepIsTheSourcesAndStaysInWidth := by
  refine ⟨pmstep_toNat, fun chk x hchk hx => ?_⟩
  have h := pmstep_toNat (BitVec.ofNat 30 chk) (BitVec.ofNat 5 x)
  rw [BitVec.toNat_ofNat, BitVec.toNat_ofNat, Nat.mod_eq_of_lt hchk, Nat.mod_eq_of_lt hx] at h
  exact h ▸ (pmstep _ _).isLt

theorem foldl_pmstep_toNat (xs : List Symbol) (c : Chk) :
    (xs.foldl pmstep c).toNat = (nats xs).foldl Ref.pmStep c.toNat := by
  rw [nats, List.foldl_map]
  exact (List.foldl_hom BitVec.toNat fun c x => (pmstep_toNat c x).symm).symm

/-- With `CHK[29:25] = 0` no generator is selected: the plain shift (R124). -/
theorem pmstep_toNat_of_lt {c : Chk} (hc : c.toNat < 2 ^ 25) (x : Symbol) :
    (pmstep c x).toNat = c.toNat * 32 + x.toNat := by
  have htop : c.extractLsb' 25 5 = 0 := by
    rw [← BitVec.toNat_inj, top_toNat, Nat.shiftRight_eq_div_pow]
    exact Nat.div_eq_of_lt hc
  have hlow : c.toNat &&& 0x1FFFFFF = c.toNat := (and_mask c.toNat 25).trans (Nat.mod_eq_of_lt hc)
  have hstep : pmstep c x = (c &&& 0x1FFFFFF) <<< 5 ||| x.setWidth 30 := by
    rw [pmstep_eq, htop, shiftIn_eq]
    exact BitVec.xor_zero
  rw [hstep, shiftIn_toNat, hlow, ← Nat.shiftLeft_add_eq_or_of_lt x.isLt, Nat.shiftLeft_eq]

/-! ### The step is linear and injective -/

theorem zeroSteps_eq_foldl (n : Nat) (c : Chk) : zeroSteps n c = (List.replicate n 0).foldl pmstep c := by
  induction n generalizing c with
  | zero => rfl
  | succ n ih => exact ih (pmstep c 0)

theorem zeroSteps_toNat (n : Nat) (c : Chk) :
    (zeroSteps n c).toNat = (List.replicate n 0).foldl Ref.pmStep c.toNat := by
  rw [zeroSteps_eq_foldl, foldl_pmstep_toNat, nats, List.map_replicate]
  rfl

/-- Only 0 is sent to 0 by zero symbols (R124). -/
theorem eq_zero_of_zeroSteps_eq_zero {n : Nat} {c : Chk} (h : zeroSteps n c = 0) : c = 0 := by
  induction n generalizing c with
  | zero => exact h
  | succ n ih => exact pmstep_zero_inj c (ih h)

/-- The difference of two accumulators under one stream: its symbols cancel, and the difference takes zero steps. -/
theorem foldl_pmstep_xor_foldl (xs : List Symbol) (c d : Chk) :
    xs.foldl pmstep c ^^^ xs.foldl pmstep d = zeroSteps xs.length (c ^^^ d) := by
  induction xs generalizing c d with
  | nil => rfl
  | cons x xs ih =>
    have hstep : pmstep c x ^^^ pmstep d x = pmstep (c ^^^ d) 0 := by rw [← pmstep_xor, BitVec.xor_self]; rfl
    rw [List.foldl_cons, List.foldl_cons, ih, hstep]
    rfl

theorem foldl_pmstep_inj {xs : List Symbol} {c d : Chk} (h : xs.foldl pmstep c = xs.foldl pmstep d) : c = d := by
  have hzero : zeroSteps xs.length (c ^^^ d) = 0 := by
    rw [← foldl_pmstep_xor_foldl, h, BitVec.xor_self]
    rfl
  exact BitVec.xor_eq_zero_iff.1 (eq_zero_of_zeroSteps_eq_zero hzero)

theorem pmstep_injective (c : Chk) : Function.Injective (pmstep c) := by
  intro x y h
  rw [pmstep_eq, pmstep_eq, BitVec.xor_left_inj, BitVec.xor_right_inj] at h
  simpa using congrArg (BitVec.setWidth 5) h

/-! ### The commands -/

theorem hrpHigh_toNat (c : Byte) : (hrpHigh c).toNat = c.toNat / 2 ^ 5 := by
  rw [hrpHigh, BitVec.toNat_setWidth, BitVec.toNat_ushiftRight, Nat.shiftRight_eq_div_pow]
  omega

theorem hrpLow_toNat (c : Byte) : (hrpLow c).toNat = c.toNat % 2 ^ 5 := by
  have h : (c &&& 31).toNat = c.toNat % 2 ^ 5 := (BitVec.toNat_and c 31).trans (and_mask c.toNat 5)
  rw [hrpLow, BitVec.toNat_setWidth, h, Nat.mod_mod]

theorem perform_cmdTxn (i : Instr) (s : State) : perform (cmdTxn i) s = exec i s :=
  (perform_write_zero (encode i) s).trans (writeCmd_command (decode_encode i) s)

theorem perform_write_encoded {i : Instr} {n : Nat} (h : (encode i).toNat = n) (s : State) :
    perform (.memWrite 0x00 (BitVec.ofNat 32 n)) s = exec i s := by
  rw [← cmdTxn_eq h, perform_cmdTxn]

/-- `PM_ONE` is bit 0 of `STATUS` (R46). -/
theorem statusRead_pmOne (s : State) : (hostRead .status s).1.getLsbD 0 = (s.pm.chk == 1) := by
  rw [hostRead_fst, regValue, statusWord, BitVec.getLsbD_append]
  exact BitVec.getLsbD_ofBool ..

theorem statusRead_pmOne_iff (s : State) : (hostRead .status s).1.getLsbD 0 = true ↔ s.pm.chk = 1 := by
  rw [statusRead_pmOne, beq_iff_eq]

theorem cksymRead_eq {s t : State} (h : t.pm.cksum = s.pm.cksum) (p : Fin 6) :
    (hostRead (.cksym p) t).1 = (hostRead (.cksym p) s).1 := by
  rw [hostRead_fst, hostRead_fst, regValue, regValue, cksymWord, cksymWord, h]

/-- Settles O20: `PM_INIT` writes `CHK` and nothing else. -/
theorem pmInitSeedsTheAccumulator : Obligations.PmInitSeedsTheAccumulator := fun s =>
  ⟨setPm { s.pm with chk := Config.seed } s, rfl, perform_write_encoded (i := .pmInit) rfl s, rfl, rfl,
    cksymRead_eq rfl, (statusRead_pmOne_iff _).2 rfl, rfl, rfl, rfl, rfl, rfl⟩

/-- Settles O21: from `CHK = 0` the plain shift gives the symbol alone. -/
theorem pmSymIsOnePolymodStep : Obligations.PmSymIsOnePolymodStep := by
  refine fun x s => ⟨feedSymbol x s, rfl, perform_write_encoded (encode_pmSym_toNat x) s, pmstep_toNat _ x, fun h0 => ?_,
    fun hlt => pmstep_toNat_of_lt hlt x, fun h => ?_, statusRead_pmOne_iff _, rfl, rfl, rfl, rfl, rfl⟩
  · have hlt : s.pm.chk.toNat < 2 ^ 25 := by rw [h0]; decide
    simpa [h0] using pmstep_toNat_of_lt hlt x
  · by_cases hx : x = 0
    · subst hx
      exact .inl (pmstep_zero_inj _ h)
    · exact .inr hx

/-- Settles O22: the symbol `PM_HRPHI` feeds is the character's top three bits. -/
theorem pmHrphiFeedsTheHighBits : Obligations.PmHrphiFeedsTheHighBits := by
  refine fun c s => ⟨feedSymbol (hrpHigh c) s, rfl, perform_write_encoded (encode_pmHrphi_toNat c) s, ?_,
    by omega, by omega, rfl, rfl, rfl, rfl, rfl⟩
  rw [← hrpHigh_toNat]
  exact pmstep_toNat _ _

/-- Settles O23: characters that agree in their low five bits feed one symbol. -/
theorem pmHrploFeedsTheLowBits : Obligations.PmHrploFeedsTheLowBits := by
  refine fun c s => ⟨feedSymbol (hrpLow c) s, rfl, perform_write_encoded (encode_pmHrplo_toNat c) s, ?_,
    fun d hd => ?_, rfl, rfl, rfl, rfl, rfl⟩
  · rw [← hrpLow_toNat]
    exact pmstep_toNat _ _
  · have hlow : hrpLow d = hrpLow c := by rw [← BitVec.toNat_inj, hrpLow_toNat, hrpLow_toNat, hd]
    exact congrArg (fun x => Host.Outcome.next (feedSymbol x s)) hlow

/-- Settles O24: six zero steps on numbers, and the views of the state they leave. -/
theorem pmGenCreatesTheChecksum : Obligations.PmGenCreatesTheChecksum := fun s =>
  ⟨setPm (genUnit s.pm) s, rfl, perform_write_encoded (i := .pmGen) rfl s, zeroSteps_toNat 6 _, rfl,
    fun p => (congrArg BitVec.toNat (hostRead_fst _ _)).trans (cksymWord_toNat p _), statusRead_pmOne_iff _,
    rfl, rfl, rfl, rfl⟩

theorem ne_zero_of_pmstep_eq_zero {c : Chk} {x : Symbol} (hc : c ≠ 0) (h : pmstep c x = 0) : x.toNat ≠ 0 := by
  intro hx
  obtain rfl : x = 0 := BitVec.toNat_inj.1 hx
  exact hc (pmstep_zero_inj c h)

/-- Settles O25: a seed is 1, and zero steps take only 0 to 0. -/
theorem chkReachesZeroOnlyByADataStep : Obligations.ChkReachesZeroOnlyByADataStep := by
  intro i s t h hs ht
  cases cmdEffect_of_exec h with
  | pmInit | reset => cases ht
  | pmSym x =>
    have hx := ne_zero_of_pmstep_eq_zero hs ht
    exact .inl ⟨x, fun h0 => hx (h0 ▸ rfl), rfl⟩
  | pmHrphi c => exact .inr (.inl ⟨c, hrpHigh_toNat c ▸ ne_zero_of_pmstep_eq_zero hs ht, rfl⟩)
  | pmHrplo c => exact .inr (.inr ⟨c, hrpLow_toNat c ▸ ne_zero_of_pmstep_eq_zero hs ht, rfl⟩)
  | pmGen => exact absurd (eq_zero_of_zeroSteps_eq_zero (n := 6) ht) hs
  | _ => exact absurd ht hs

/-! ### Streams -/

/-- The polymod of a stream, in the block's arithmetic. -/
def polymodChk (xs : List Symbol) : Chk := xs.foldl pmstep Config.seed

theorem polymodChk_toNat (xs : List Symbol) : (polymodChk xs).toNat = Ref.polymod (nats xs) := foldl_pmstep_toNat xs _

theorem polymodChk_append (xs ys : List Symbol) : polymodChk (xs ++ ys) = ys.foldl pmstep (polymodChk xs) :=
  List.foldl_append

/-- Every command has its meaning (R260). -/
theorem exec_completes (i : Instr) (s : State) : ∃ t, exec i s = .next t := by
  cases i with
  | bcCfg | bcPush | bcFlush =>
    simp only [exec, execBcCfg, execBcPush, execBcFlush]
    split_ifs <;> exact ⟨_, rfl⟩
  | _ => exact ⟨_, rfl⟩

theorem perform_completes (t : Txn) (s : State) : ∃ s', perform t s = .next s' := by
  cases t with
  | memRead off => exact ⟨_, rfl⟩
  | memWrite off v =>
    rcases busWrite_cases off v s with h | h
    · exact ⟨_, h⟩
    · rcases writeCmd_cases v s with ⟨i, -, hi⟩ | ⟨c, -, hc⟩
      · obtain ⟨t, ht⟩ := exec_completes i s
        exact ⟨t, h.trans (hi.trans ht)⟩
      · exact ⟨_, h.trans hc⟩
  | resetInput => exact ⟨_, rfl⟩

/-- In a stream only a `PM_SYM` write steps `CHK` (R129). -/
theorem chk_of_streamTxn {t : Txn} {s s' : State} (hst : streamTxn t = true) (h : perform t s = .next s') :
    s'.pm.chk = (txnSymbol t).toList.foldl pmstep s.pm.chk := by
  cases txnEffect_of_perform h with
  | resetInput => cases hst
  | command i ht he =>
    cases t with
    | memRead | resetInput => cases ht
    | memWrite off v =>
      simp only [streamTxn, ht] at hst
      simp only [txnSymbol, ht]
      cases he with
      | pmInit | pmHrphi | pmHrplo | pmGen | reset => cases hst
      | _ => rfl
  | illegal w c hw => simp [txnSymbol, txnCommand, hw]
  | readError | read | pop => rfl
  | writeError off v hoff =>
    have hcmd : txnCommand (.memWrite off v) = none := if_neg hoff
    rw [txnSymbol, hcmd]
    rfl

theorem performAll_stream {ts : List Txn} (s : State) (hts : ∀ t ∈ ts, streamTxn t = true) :
    ∃ s', performAll ts s = .next s' ∧ s'.pm.chk = (ts.filterMap txnSymbol).foldl pmstep s.pm.chk := by
  induction ts generalizing s with
  | nil => exact ⟨s, rfl, rfl⟩
  | cons t ts ih =>
    obtain ⟨ht, hts⟩ := List.forall_mem_cons.1 hts
    obtain ⟨s1, h1⟩ := perform_completes t s
    obtain ⟨s', h', hchk⟩ := ih s1 hts
    refine ⟨s', (performAll_cons h1 ts).trans h', ?_⟩
    rw [hchk, chk_of_streamTxn ht h1, List.filterMap_cons]
    cases txnSymbol t <;> rfl

/-- Settles O26: a stream steps the seed through the symbols of its `PM_SYM` writes. -/
theorem aStreamOfSymbolsLeavesItsPolymod : Obligations.AStreamOfSymbolsLeavesItsPolymod := by
  intro ts s hts
  obtain ⟨s', h', hchk⟩ := performAll_stream (setPm { s.pm with chk := Config.seed } s) hts
  have hinit := perform_write_encoded (i := .pmInit) (n := 0x1000) rfl s
  refine ⟨s', (performAll_cons hinit ts).trans h', ?_⟩
  rw [hchk]
  exact polymodChk_toNat _

end Sys2Proof.Proofs
end

section
/-! PROOFS. The host's checksum procedures (spec 40_checksum.md R130 to R132): the feed of a stream, verification, the
detection of one replaced symbol, and creation. -/

namespace Sys2Proof.Proofs

open Sys2Proof Sys2Proof.Machine Sys2Proof.Laws

/-! ### The feed -/

/-- The symbol a command feeds, if it feeds one (R124 to R126). -/
def fedSymbol : Instr → Option Symbol
  | .pmSym x => some x
  | .pmHrphi c => some (hrpHigh c)
  | .pmHrplo c => some (hrpLow c)
  | _ => none

theorem exec_of_fedSymbol {i : Instr} {x : Symbol} (h : fedSymbol i = some x) (s : State) :
    exec i s = .next (feedSymbol x s) := by
  cases i with
  | pmSym | pmHrphi | pmHrplo => cases h; rfl
  | _ => cases h

/-- `s` with `CHK` replaced. -/
def setChk (c : Chk) (s : State) : State := setPm { s.pm with chk := c } s

theorem hostCmds_cons {i : Instr} {s t : State} (h : exec i s = .next t) (is : List Instr) :
    hostCmds (i :: is) s = hostCmds is t :=
  performAll_cons ((perform_cmdTxn i s).trans h) _

theorem hostCmds_append {is : List Instr} {s t : State} (h : hostCmds is s = .next t) (js : List Instr) :
    hostCmds (is ++ js) s = hostCmds js t := by
  rw [hostCmds, List.map_append]
  exact performAll_append h _

/-- Commands that feed symbols step `CHK` through them and do nothing else (R124 to R126). -/
theorem hostCmds_feed {is : List Instr} {xs : List Symbol} (h : is.map fedSymbol = xs.map some) (s : State) :
    hostCmds is s = .next (setChk (xs.foldl pmstep s.pm.chk) s) := by
  induction is generalizing xs s with
  | nil =>
    obtain rfl : xs = [] := by simpa using h.symm
    rfl
  | cons i is ih =>
    obtain ⟨x, xs, rfl, hx, hxs⟩ := List.map_eq_cons_iff.1 h.symm
    rw [hostCmds_cons (exec_of_fedSymbol hx.symm s), ih hxs.symm]
    rfl

/-- `hrp_expand`, in the block's symbols (R130). -/
def hrpSymbols (h : List Byte) : List Symbol := h.map hrpHigh ++ [0] ++ h.map hrpLow

theorem nats_append {w : Nat} (l m : List (BitVec w)) : nats (l ++ m) = nats l ++ nats m := List.map_append

theorem nats_hrpSymbols (h : List Byte) : nats (hrpSymbols h) = Ref.hrpExpand (nats h) := by
  have hhigh : BitVec.toNat ∘ hrpHigh = (· >>> 5) ∘ BitVec.toNat := by
    funext c
    exact (hrpHigh_toNat c).trans (Nat.shiftRight_eq_div_pow _ _).symm
  have hlow : BitVec.toNat ∘ hrpLow = (· &&& 31) ∘ BitVec.toNat := by
    funext c
    exact (hrpLow_toNat c).trans (and_mask c.toNat 5).symm
  simp only [Ref.hrpExpand, hrpSymbols, nats, List.map_append, List.map_map, hhigh, hlow]
  rfl

theorem fedSymbol_pmHrp (h : List Byte) : (pmHrp h).map fedSymbol = (hrpSymbols h).map some := by
  simp [pmHrp, hrpSymbols, fedSymbol, Function.comp_def]

theorem fedSymbol_pmData (xs : List Symbol) : (pmData xs).map fedSymbol = xs.map some := by
  simp [pmData, fedSymbol, Function.comp_def]

/-- Settles O27: the commands feed the symbols of `hrp_expand` one by one. -/
theorem thePrefixFeedIsHrpExpand : Obligations.ThePrefixFeedIsHrpExpand := by
  refine fun h s => ⟨rfl, ?_, _, hostCmds_feed (fedSymbol_pmHrp h) s, ?_, rfl, rfl, rfl, rfl, rfl⟩
  · simp [Ref.hrpExpand, nats]
    omega
  · rw [← nats_hrpSymbols]
    exact foldl_pmstep_toNat _ _

/-- The stream of `hrp_expand` and the data, as symbols (R131, R132). -/
def streamSymbols (h : List Byte) (data : List Symbol) : List Symbol := hrpSymbols h ++ data

theorem nats_streamSymbols (h : List Byte) (data : List Symbol) :
    nats (streamSymbols h data) = Ref.hrpExpand (nats h) ++ nats data := by
  rw [streamSymbols, nats_append, nats_hrpSymbols]

/-- The feed leaves the stream's polymod in `CHK` (R222, R223). -/
theorem hostCmds_checksumFeed (h : List Byte) (data : List Symbol) (s : State) :
    hostCmds (checksumFeed h data) s = .next (setChk (polymodChk (streamSymbols h data)) s) := by
  have hfeed : (pmHrp h ++ pmData data).map fedSymbol = (streamSymbols h data).map some := by
    rw [streamSymbols, List.map_append, List.map_append, fedSymbol_pmHrp, fedSymbol_pmData]
  exact (hostCmds_cons (i := .pmInit) rfl _).trans (hostCmds_feed hfeed _)

/-! ### Verification -/

/-- Verification answers whether the stream's polymod is 1, and leaves it in `CHK` (R131, R222). -/
theorem verifyChecksum_spec (h : List Byte) (data : List Symbol) (s : State) :
    ∃ t, verifyChecksum h data s = .next (polymodChk (streamSymbols h data) == 1, t) ∧
      t.pm.chk = polymodChk (streamSymbols h data) ∧ t.bc = s.bc ∧ t.ctl = s.ctl := by
  simp only [verifyChecksum, hostCmds_checksumFeed, andThen, statusRead_pmOne]
  exact ⟨_, rfl, rfl, rfl, rfl⟩

theorem verifyChecksum_answers_iff {h : List Byte} {data : List Symbol} {s : State} {b : Bool} :
    (∃ t, verifyChecksum h data s = .next (b, t)) ↔ (polymodChk (streamSymbols h data) == 1) = b := by
  obtain ⟨t, ht, -⟩ := verifyChecksum_spec h data s
  simp [ht]

theorem ref_verifyChecksum_eq (h : List Byte) (data : List Symbol) :
    Ref.verifyChecksum (nats h) (nats data) = (polymodChk (streamSymbols h data) == 1) := by
  rw [Ref.verifyChecksum, ← nats_streamSymbols, ← polymodChk_toNat, Bool.eq_iff_iff, beq_iff_eq, beq_iff_eq,
    ← BitVec.toNat_inj]
  rfl

/-- Settles O28: the host reads `PM_ONE`, which compares the stream's polymod with 1. -/
theorem verificationAnswersVerifyChecksum : Obligations.VerificationAnswersVerifyChecksum := by
  refine ⟨fun h data s => ?_, fun s t ht => ?_⟩
  · obtain ⟨t, ht, hchk, hbc, hctl⟩ := verifyChecksum_spec h data s
    rw [ref_verifyChecksum_eq, beq_iff_eq]
    exact ⟨t, ht, hchk ▸ Iff.rfl, hbc, hctl⟩
  · cases ht
    exact (statusRead_pmOne_iff _).2 rfl

/-- Streams that differ in one symbol part there and never meet again: each later step is injective. -/
theorem polymodChk_replace_ne {x y : Symbol} (hxy : x ≠ y) (before after : List Symbol) :
    polymodChk (before ++ x :: after) ≠ polymodChk (before ++ y :: after) := by
  rw [polymodChk_append, polymodChk_append]
  exact fun h => hxy (pmstep_injective _ (foldl_pmstep_inj h))

/-- Settles O30: at most one symbol in a place makes the polymod 1. -/
theorem oneReplacedSymbolIsDetected : Obligations.OneReplacedSymbolIsDetected := by
  intro h before after x y s hxy hx
  rw [verifyChecksum_answers_iff, beq_iff_eq, streamSymbols, ← List.append_assoc] at hx
  rw [verifyChecksum_answers_iff, beq_eq_false_iff_ne, streamSymbols, ← List.append_assoc, ← hx]
  exact polymodChk_replace_ne hxy.symm _ _

/-! ### Creation -/

theorem hostRead_of_ne_out {r : Reg} (hr : r ≠ .bcOut) (s : State) :
    hostRead r s = (regValue r s, logRead (regValue r s) s) := by
  rw [hostRead, busRead_regOffset, if_neg hr]

/-- Reads of other registers than `BC_OUT` return the views of the state they start from (R66). -/
theorem hostReads_of_ne_out {rs : List Reg} (hrs : ∀ r ∈ rs, r ≠ .bcOut) (s : State) :
    hostReads rs s = (rs.map (regValue · s), { s with reads := s.reads ++ rs.map (regValue · s) }) := by
  induction rs generalizing s with
  | nil => simp [hostReads]
  | cons r rs ih =>
    obtain ⟨hr, hrs⟩ := List.forall_mem_cons.1 hrs
    simp [hostReads, hostRead_of_ne_out hr, ih hrs, regValue_logRead]

/-- The six 5-bit groups of a 30-bit value, the most significant first (R128). -/
def checksumSymbols (v : Chk) : List Symbol := (List.finRange 6).map fun p => v.extractLsb' (5 * (5 - p.val)) 5

theorem nats_checksumSymbols (v : Chk) :
    nats (checksumSymbols v) = (List.range 6).map fun p => v.toNat >>> (5 * (5 - p)) &&& 31 := by
  rw [nats, checksumSymbols, List.map_map, ← List.map_coe_finRange_eq_range, List.map_map]
  refine List.map_congr_left fun p _ => ?_
  exact (BitVec.extractLsb'_toNat ..).trans (and_mask _ 5).symm

theorem cksymWord_group (p : Fin 6) (s : State) :
    (cksymWord p s).extractLsb' 0 5 = s.pm.cksum.extractLsb' (5 * (5 - p.val)) 5 := by
  rw [← BitVec.toNat_inj, BitVec.extractLsb'_toNat, BitVec.extractLsb'_toNat, cksymWord_toNat, Nat.shiftRight_zero,
    Nat.shiftRight_eq_div_pow, Nat.mod_mod]

theorem cksymRead_symbols (s : State) :
    (hostReads cksymRegs s).1.map (·.extractLsb' 0 5) = checksumSymbols s.pm.cksum := by
  rw [hostReads_of_ne_out (by decide)]
  have hregs : cksymRegs = (List.finRange 6).map .cksym := by decide
  rw [hregs, List.map_map, List.map_map]
  exact List.map_congr_left fun p _ => cksymWord_group p s

/-- What `create-checksum` splits into symbols (R127, R132). -/
def createdChecksum (h : List Byte) (data : List Symbol) : Chk := zeroSteps 6 (polymodChk (streamSymbols h data)) ^^^ 1

theorem createdChecksum_toNat (h : List Byte) (data : List Symbol) :
    (createdChecksum h data).toNat = Ref.checksumValue (nats h) (nats data) := by
  rw [createdChecksum, BitVec.toNat_xor, zeroSteps_toNat, polymodChk_toNat, nats_streamSymbols, Ref.checksumValue,
    Ref.polymod, Ref.polymod, List.foldl_append (l' := List.replicate 6 0)]
  rfl

/-- Creation answers the created checksum's six symbols, most significant first (R132, R223). -/
theorem createChecksum_spec (h : List Byte) (data : List Symbol) (s : State) :
    ∃ t, createChecksum h data s = .next (checksumSymbols (createdChecksum h data), t) ∧ t.bc = s.bc ∧ t.ctl = s.ctl := by
  have hcmds : hostCmds (checksumFeed h data ++ [.pmGen]) s = _ :=
    (hostCmds_append (hostCmds_checksumFeed h data s) _).trans (hostCmds_cons (i := .pmGen) rfl [])
  rw [createChecksum, hcmds]
  refine ⟨_, congrArg (fun ck => Host.Outcome.next (ck, _)) (cksymRead_symbols _), ?_, ?_⟩ <;>
    rw [hostReads_of_ne_out (by decide)] <;> rfl

/-- Taking in the next group of `v` below the ones already taken in is the plain shift (R124). -/
theorem pmstep_group (v : Chk) (k : Nat) : pmstep (v >>> (k + 5)) (v.extractLsb' k 5) = v >>> k := by
  have hdiv : (v >>> (k + 5)).toNat = v.toNat / 2 ^ k / 2 ^ 5 := by
    rw [BitVec.toNat_ushiftRight, Nat.shiftRight_eq_div_pow, pow_add, Nat.div_div_eq_div_mul]
  have hle : v.toNat / 2 ^ k ≤ v.toNat := Nat.div_le_self ..
  rw [← BitVec.toNat_inj, pmstep_toNat_of_lt (by omega), hdiv, BitVec.extractLsb'_toNat, BitVec.toNat_ushiftRight,
    Nat.shiftRight_eq_div_pow]
  omega

/-- A value's six groups, fed from 0, give the value back. -/
theorem foldl_pmstep_checksumSymbols (v : Chk) : (checksumSymbols v).foldl pmstep 0 = v := by
  have h0 : (0 : Chk) = v >>> 30 := by
    rw [← BitVec.toNat_inj, BitVec.toNat_ushiftRight, Nat.shiftRight_eq_div_pow, Nat.div_eq_of_lt v.isLt]
    rfl
  calc (checksumSymbols v).foldl pmstep 0
      = pmstep (pmstep (pmstep (pmstep (pmstep (pmstep (v >>> 30) (v.extractLsb' 25 5)) (v.extractLsb' 20 5))
          (v.extractLsb' 15 5)) (v.extractLsb' 10 5)) (v.extractLsb' 5 5)) (v.extractLsb' 0 5) := by rw [← h0]; rfl
    _ = v := by simp only [pmstep_group, BitVec.ushiftRight_zero]

/-- From any accumulator they add the value to six zero steps. -/
theorem checksumSymbols_foldl_pmstep (v c : Chk) : (checksumSymbols v).foldl pmstep c = zeroSteps 6 c ^^^ v := by
  have hc : c ^^^ 0 = c := BitVec.xor_zero
  have hdiff := foldl_pmstep_xor_foldl (checksumSymbols v) c 0
  rw [foldl_pmstep_checksumSymbols, hc] at hdiff
  rw [← BitVec.xor_left_inj v, hdiff, BitVec.xor_assoc, BitVec.xor_self, BitVec.xor_zero]
  rfl

/-- The created checksum cancels the six zero steps but for its inverted bit (R127, R132). -/
theorem polymodChk_created (h : List Byte) (data : List Symbol) :
    polymodChk (streamSymbols h (data ++ checksumSymbols (createdChecksum h data))) = 1 := by
  rw [streamSymbols, ← List.append_assoc, polymodChk_append, checksumSymbols_foldl_pmstep, createdChecksum,
    ← BitVec.xor_assoc, streamSymbols, BitVec.xor_self, BitVec.zero_xor]

/-- Settles O29: the reads are the created checksum's groups, and appended they make the polymod 1. -/
theorem creationAnswersAChecksumThatVerifies : Obligations.CreationAnswersAChecksumThatVerifies := by
  intro h data s
  obtain ⟨t, ht, hbc, hctl⟩ := createChecksum_spec h data s
  refine ⟨_, t, ht, ?_, rfl, hbc, hctl, ?_⟩
  · rw [nats_checksumSymbols, createdChecksum_toNat]
    rfl
  · rw [verifyChecksum_answers_iff, polymodChk_created]
    rfl

end Sys2Proof.Proofs
end

section
/-! PROOFS. `convert_bits` on numbers (spec 41_convert.md R160, R169, R170): the groups of a bit string, the source's
loops in closed form, the output lengths and the byte round trip. -/

namespace Sys2Proof.Proofs

open Sys2Proof Sys2Proof.Machine Sys2Proof.Laws

/-! ### Groups of a bit string -/

/-- The complete `t`-bit groups of the `b` low bits of `a`, the most significant first (R70, R162). -/
def bitGroups (t a b : Nat) : List Nat := (List.range (b / t)).map fun k => a / 2 ^ (b - (k + 1) * t) % 2 ^ t

@[simp] theorem bitGroups_length (t a b : Nat) : (bitGroups t a b).length = b / t := by simp [bitGroups]

theorem lt_of_mem_bitGroups {t a b x : Nat} (hx : x ∈ bitGroups t a b) : x < 2 ^ t := by
  obtain ⟨k, -, rfl⟩ := List.mem_map.1 hx
  exact Nat.mod_lt _ (by positivity)

/-- Fewer bits than a group's width make no group. -/
theorem bitGroups_of_lt {t b : Nat} (a : Nat) (h : b < t) : bitGroups t a b = [] := by
  simp [bitGroups, Nat.div_eq_of_lt h]

/-- The first group stands above the others. -/
theorem bitGroups_cons {t b : Nat} (a : Nat) (ht : 1 ≤ t) (h : t ≤ b) :
    bitGroups t a b = a / 2 ^ (b - t) % 2 ^ t :: bitGroups t a (b - t) := by
  have hn : b / t = (b - t) / t + 1 := by rw [← Nat.add_div_right _ ht, Nat.sub_add_cancel h]
  rw [bitGroups, hn, List.range_succ_eq_map, List.map_cons, List.map_map, Nat.zero_add, Nat.one_mul]
  refine congrArg _ (List.map_congr_left fun k _ => ?_)
  have : b - (k + 1 + 1) * t = b - t - (k + 1) * t := by rw [Nat.succ_mul (k + 1)]; omega
  simp [this]

/-- `f` more bits below `a` leave its groups as they are; they follow the residue of `a` (R165). -/
theorem bitGroups_append {t f a v : Nat} (b : Nat) (ht : 1 ≤ t) (hv : v < 2 ^ f) :
    bitGroups t (a * 2 ^ f + v) (b + f) = bitGroups t a b ++ bitGroups t (a * 2 ^ f + v) (b % t + f) := by
  induction b using Nat.strong_induction_on with
  | _ b ih =>
    by_cases hb : b < t
    · rw [bitGroups_of_lt a hb, Nat.mod_eq_of_lt hb, List.nil_append]
    · rw [Nat.not_lt] at hb
      have hhead : (a * 2 ^ f + v) / 2 ^ (b + f - t) = a / 2 ^ (b - t) := by
        rw [show b + f - t = f + (b - t) by omega, pow_add, ← Nat.div_div_eq_div_mul, Nat.mul_comm,
          Nat.mul_add_div (by positivity), Nat.div_eq_of_lt hv, Nat.add_zero]
      rw [bitGroups_cons _ ht (by omega : t ≤ b + f), bitGroups_cons a ht hb, hhead, List.cons_append,
        show b + f - t = b - t + f by omega, ih (b - t) (by omega), Nat.mod_eq_sub_mod hb]

/-- The groups are of the `b` low bits alone. -/
theorem bitGroups_mod (t a b : Nat) (ht : 1 ≤ t) : bitGroups t (a % 2 ^ b) b = bitGroups t a b := by
  refine List.map_congr_left fun k hk => ?_
  have hle : (k + 1) * t ≤ b := (Nat.le_div_iff_mul_le ht).1 (List.mem_range.1 hk)
  have hb : 2 ^ b = 2 ^ (b - (k + 1) * t) * (2 ^ t * 2 ^ (k * t)) := by
    rw [← pow_add, ← pow_add]; congr 1; rw [Nat.succ_mul] at *; omega
  rw [hb, Nat.mod_mul_right_div_self, Nat.mod_mul_right_mod]

/-- One more value at the end of a bit string of whole groups is one more group. -/
theorem bitGroups_succ {t a : Nat} (n : Nat) (ht : 1 ≤ t) :
    bitGroups t a ((n + 1) * t) = bitGroups t (a / 2 ^ t) (n * t) ++ [a % 2 ^ t] := by
  have h := bitGroups_append (t := t) (a := a / 2 ^ t) (n * t) ht (Nat.mod_lt a (by positivity : 2 ^ t > 0))
  rw [Nat.div_add_mod', ← Nat.succ_mul, Nat.mul_mod_left, Nat.zero_add, bitGroups_cons a ht le_rfl] at h
  simpa [bitGroups_of_lt, show 0 < t from ht] using h

/-- A bit string with one more value (R70). -/
theorem bitString_append_singleton (f : Nat) (vs : List Nat) (v : Nat) :
    bitString f (vs ++ [v]) = bitString f vs * 2 ^ f + v := by
  simp [bitString]

/-- The groups of a bit string, at the width of its values, are its values. -/
theorem bitGroups_bitString {f : Nat} (hf : 1 ≤ f) {vs : List Nat} (hvs : ∀ v ∈ vs, v < 2 ^ f) :
    bitGroups f (bitString f vs) (vs.length * f) = vs := by
  induction vs using List.reverseRecOn with
  | nil => simp [bitGroups_of_lt, show 0 < f from hf]
  | append_singleton vs v ih =>
    have hv : v < 2 ^ f := hvs v (by simp)
    rw [bitString_append_singleton, List.length_append, List.length_singleton, bitGroups_succ _ hf, Nat.mul_add_mod',
      Nat.mod_eq_of_lt hv, Nat.mul_comm, Nat.mul_add_div (by positivity), Nat.div_eq_of_lt hv, Nat.add_zero,
      ih fun w hw => hvs w (by simp [hw])]

/-- The bit string of a number's groups is the number. -/
theorem bitString_bitGroups {t : Nat} (ht : 1 ≤ t) (n : Nat) {a : Nat} (ha : a < 2 ^ (n * t)) :
    bitString t (bitGroups t a (n * t)) = a := by
  induction n generalizing a with
  | zero => rw [Nat.zero_mul] at *; rw [bitGroups_of_lt a ht, bitString, List.foldl_nil, Nat.lt_one_iff.1 ha]
  | succ n ih =>
    rw [Nat.succ_mul, pow_add, Nat.mul_comm] at ha
    rw [bitGroups_succ n ht, bitString_append_singleton, ih (Nat.div_lt_of_lt_mul ha), Nat.div_add_mod']

/-! ### The source's loops in closed form -/

/-- The emission loop puts out the complete groups and leaves the rest of the count (R160). -/
theorem emitWhile_eq {t : Nat} (a : Nat) (ht : 1 ≤ t) {fuel b : Nat} (hb : b ≤ fuel) :
    Ref.emitWhile a t fuel b = (bitGroups t a b, b % t) := by
  induction fuel generalizing b with
  | zero =>
    obtain rfl : b = 0 := by omega
    simp [Ref.emitWhile, bitGroups_of_lt, show 0 < t from ht]
  | succ fuel ih =>
    rw [Ref.emitWhile]
    split
    next hge =>
      rw [ih (by omega), bitGroups_cons a ht hge, Nat.mod_eq_sub_mod hge, and_mask, Nat.shiftRight_eq_div_pow]
    next hlt => rw [bitGroups_of_lt a (by omega), Nat.mod_eq_of_lt (by omega)]

/-- Numbers as the source's integers. -/
def integers (vs : List Nat) : List Int := vs.map Nat.cast

theorem ints_eq_integers {w : Nat} (l : List (BitVec w)) : ints l = integers (nats l) := by
  rw [ints, integers, nats, List.map_map]
  rfl

theorem integers_append (vs ws : List Nat) : integers (vs ++ ws) = integers vs ++ integers ws := List.map_append

theorem integers_cons (v : Nat) (vs : List Nat) : integers (v :: vs) = (v : Int) :: integers vs := rfl

theorem integers_singleton (v : Nat) : integers [v] = [(v : Int)] := rfl

/-- The coercion that Lean inserts in the statements of R169 and R170. -/
theorem map_cast_eq_integers (vs : List Nat) : (vs.map fun v => (v : Int) : List Int) = integers vs := by
  rw [List.map_id']
  exact List.flatMap_pure_eq_map _ vs

theorem feed_cons {f t v idx a b : Nat} {vs : List Int} {ret : List Nat} (ht : 1 ≤ t) (hv : v < 2 ^ f) :
    Ref.feed f t ((v : Int) :: vs) idx a b ret =
      Ref.feed f t vs (idx + 1) (a * 2 ^ f + v) ((b + f) % t) (ret ++ bitGroups t (a * 2 ^ f + v) (b + f)) := by
  have hin : 0 ≤ (v : Int) ∧ (v : Int) < 2 ^ f := ⟨Int.natCast_nonneg v, by exact_mod_cast hv⟩
  rw [Ref.feed, if_pos hin, Int.toNat_natCast, ← Nat.shiftLeft_add_eq_or_of_lt hv, Nat.shiftLeft_eq]
  simp only [emitWhile_eq _ ht le_rfl]

/-- After in-range values the source's accumulator is their bit string, and it has put out the bit string's groups
(R160, R165). -/
theorem feed_integers_append {f t : Nat} {vs : List Nat} (ht : 1 ≤ t) (hvs : ∀ v ∈ vs, v < 2 ^ f) (ws : List Int) :
    Ref.feed f t (integers vs ++ ws) 0 0 0 [] =
      Ref.feed f t ws vs.length (bitString f vs) (vs.length * f % t) (bitGroups t (bitString f vs) (vs.length * f)) := by
  induction vs using List.reverseRecOn generalizing ws with
  | nil => simp [integers, bitString, bitGroups_of_lt 0 ht]
  | append_singleton vs v ih =>
    have hv : v < 2 ^ f := hvs v (by simp)
    rw [integers_append, List.append_assoc, ih fun w hw => hvs w (by simp [hw]), integers_singleton,
      List.singleton_append, feed_cons ht hv, ← bitGroups_append _ ht hv, Nat.mod_add_mod, bitString_append_singleton,
      List.length_append, List.length_singleton, Nat.succ_mul]

/-- Values that the source's loop accepts are in range (R160). -/
theorem lt_of_feed_eq_ok {f t idx a b : Nat} {vs ret : List Nat} {r : Nat × Nat × List Nat}
    (h : Ref.feed f t (integers vs) idx a b ret = .ok r) : ∀ v ∈ vs, v < 2 ^ f := by
  induction vs generalizing idx a b ret with
  | nil => simp
  | cons v vs ih =>
    rw [integers_cons, Ref.feed] at h
    split at h
    next hin => exact List.forall_mem_cons.2 ⟨by exact_mod_cast hin.2, ih h⟩
    next => cases h

/-- In-range values: the bit string's groups, completed (R160). -/
theorem convertBits_of_inRange {f t : Nat} {vs : List Nat} (ht : 1 ≤ t) (hvs : ∀ v ∈ vs, v < 2 ^ f) (p : Bool) :
    Ref.convertBits (integers vs) f t p =
      Ref.complete f t p (bitString f vs) (vs.length * f % t) (bitGroups t (bitString f vs) (vs.length * f)) := by
  have h := feed_integers_append ht hvs []
  rw [List.append_nil] at h
  rw [Ref.convertBits, h]
  rfl

/-- The first value out of range is the error, with its index (R160). -/
theorem convertBits_of_outOfRange {f t v : Nat} {vs : List Nat} (ht : 1 ≤ t) (hvs : ∀ v ∈ vs, v < 2 ^ f)
    (hv : 2 ^ f ≤ v) (ws : List Int) (p : Bool) :
    Ref.convertBits (integers vs ++ (v : Int) :: ws) f t p = .error (.dataOutOfRange vs.length v) := by
  have hout : ¬ (0 ≤ (v : Int) ∧ (v : Int) < 2 ^ f) := fun h => by
    have : v < 2 ^ f := by exact_mod_cast h.2
    omega
  rw [Ref.convertBits, feed_integers_append ht hvs, Ref.feed, if_neg hout]

/-- What a successful conversion was fed. -/
theorem lt_of_convertBits_eq_ok {f t : Nat} {vs ret : List Nat} {p : Bool}
    (h : Ref.convertBits (integers vs) f t p = .ok ret) : ∀ v ∈ vs, v < 2 ^ f := by
  rw [Ref.convertBits] at h
  split at h
  · cases h
  next hfeed => exact lt_of_feed_eq_ok hfeed

/-- Everything the strict completion can do (R160). -/
theorem complete_strict (f t a b : Nat) (ret : List Nat) :
    Ref.complete f t false a b ret =
      if f ≤ b then .error .illegalPadding else if a % 2 ^ b ≠ 0 then .error .nonZeroPadding else .ok ret := by
  simp only [Ref.complete, and_mask, ge_iff_le]
  rfl

/-! ### Output lengths -/

/-- A remainder makes a quotient one more, rounded up. -/
theorem add_sub_one_div {t : Nat} (ht : 1 ≤ t) (n : Nat) :
    (n + t - 1) / t = if 0 < n % t then n / t + 1 else n / t := by
  have hsum : n + t - 1 = t * (n / t) + (n % t + t - 1) := by
    have := Nat.div_add_mod n t
    omega
  have hr := Nat.mod_lt n ht
  rw [hsum, Nat.mul_add_div ht]
  split
  · rw [show n % t + t - 1 = n % t - 1 + t by omega, Nat.add_div_right _ ht,
      Nat.div_eq_of_lt (a := n % t - 1) (by omega)]
  · rw [Nat.div_eq_of_lt (a := n % t + t - 1) (by omega), Nat.add_zero]

/-- The padded completion adds a group iff bits are left (R160). -/
theorem length_of_complete_padded {f t a b : Nat} {gs ret : List Nat} (h : Ref.complete f t true a b gs = .ok ret) :
    ret.length = if 0 < b then gs.length + 1 else gs.length := by
  rw [Ref.complete, if_pos rfl] at h
  split at h <;> cases h
  next hb => rw [if_pos hb, List.length_append, List.length_singleton]
  next hb => rw [if_neg hb]

theorem complete_strict_eq_ok_iff {f t a b : Nat} {gs ret : List Nat} :
    Ref.complete f t false a b gs = .ok ret ↔ b < f ∧ a % 2 ^ b = 0 ∧ gs = ret := by
  rw [complete_strict]
  split_ifs with hb ha
  · simp [hb]
  · simp [ha]
  · simp [Nat.not_le.1 hb, not_not.1 ha]

/-- Settles O40: the groups are those of the bit string, and the completion adds one for the bits left, or requires them
to be few and zero. -/
theorem outputLengths : Obligations.OutputLengths := by
  intro vs f t p ret _ ht h
  rw [map_cast_eq_integers] at h
  rw [convertBits_of_inRange ht (lt_of_convertBits_eq_ok h)] at h
  cases p with
  | true =>
    rw [if_pos rfl, length_of_complete_padded h, bitGroups_length, add_sub_one_div ht]
  | false =>
    obtain ⟨hb, ha, rfl⟩ := complete_strict_eq_ok_iff.1 h
    exact ⟨bitGroups_length .., hb, ha⟩

/-! ### The byte round trip -/

/-- A padded conversion's groups are those of the bit string with zeros below it, up to the next whole group (R160). -/
theorem complete_padded {f t a n k : Nat} (ht : 1 ≤ t) (hk : k < t) {m : Nat} (hm : n + k = m * t) :
    Ref.complete f t true a (n % t) (bitGroups t a n) = .ok (bitGroups t (a * 2 ^ k) (m * t)) := by
  have happend := bitGroups_append (t := t) (a := a) n ht (v := 0) (f := k) (by positivity)
  rw [Nat.add_zero, hm] at happend
  have hr : (n % t + k) % t = 0 := by rw [Nat.mod_add_mod, hm, Nat.mul_mod_left]
  have hlt : n % t < t := Nat.mod_lt n ht
  rw [happend, Ref.complete, if_pos rfl]
  split
  next h0 =>
    have hrk : n % t + k = t := by
      have := Nat.le_of_dvd (by omega) (Nat.dvd_of_mod_eq_zero hr)
      by_contra hne
      rw [Nat.mod_eq_sub_mod this, Nat.mod_eq_of_lt (by omega)] at hr
      omega
    rw [show t - n % t = k by omega, hrk, bitGroups_cons _ ht le_rfl, Nat.sub_self, bitGroups_of_lt _ ht, and_mask,
      and_mask, Nat.shiftLeft_eq, ← Nat.mul_mod_mul_right, ← pow_add, hrk, Nat.mod_mod, pow_zero, Nat.div_one]
  next h0 =>
    obtain rfl : k = 0 := by rw [show n % t = 0 by omega, Nat.zero_add, Nat.mod_eq_of_lt hk] at hr; exact hr
    rw [bitGroups_of_lt (b := n % t + 0) _ hlt, List.append_nil]

theorem bitString_lt {f : Nat} {vs : List Nat} (hvs : ∀ v ∈ vs, v < 2 ^ f) : bitString f vs < 2 ^ (vs.length * f) := by
  induction vs using List.reverseRecOn with
  | nil => simp [bitString]
  | append_singleton vs v ih =>
    have hv : v < 2 ^ f := hvs v (by simp)
    rw [bitString_append_singleton, List.length_append, List.length_singleton, Nat.succ_mul, pow_add]
    calc bitString f vs * 2 ^ f + v < (bitString f vs + 1) * 2 ^ f := by rw [Nat.succ_mul]; omega
      _ ≤ 2 ^ (vs.length * f) * 2 ^ f := Nat.mul_le_mul_right _ (ih fun w hw => hvs w (by simp [hw]))

theorem lt_of_mem_nats {w x : Nat} {l : List (BitVec w)} (hx : x ∈ nats l) : x < 2 ^ w := by
  obtain ⟨v, -, rfl⟩ := List.mem_map.1 hx
  exact v.isLt

theorem nats_length {w : Nat} (l : List (BitVec w)) : (nats l).length = l.length := List.length_map _

/-- The low bits of the last group are the string's (R169). -/
theorem getLast_bitGroups {t k a m x : Nat} (ht : 1 ≤ t) (hk : k ≤ t)
    (hx : (bitGroups t (a * 2 ^ k) (m * t)).getLast? = some x) : x % 2 ^ k = 0 := by
  cases m with
  | zero => simp [bitGroups_of_lt _ ht] at hx
  | succ m =>
    rw [bitGroups_succ m ht, List.getLast?_concat, Option.some.injEq] at hx
    rw [← hx, Nat.mod_mod_of_dvd _ (Nat.pow_dvd_pow 2 hk), Nat.mul_mod_left]

section
variable {b : List Nat} {m k : Nat} (hb : ∀ v ∈ b, v < 2 ^ 8) (hk : k < 5) (hm : b.length * 8 + k = m * 5)
include hb hk hm

/-- A byte sequence padded to symbols: its bit string with `k` zeros below it, in groups of 5 (R169). -/
theorem convertBits_bytes :
    Ref.convertBits (integers b) 8 5 true = .ok (bitGroups 5 (bitString 8 b * 2 ^ k) (m * 5)) := by
  rw [convertBits_of_inRange (by decide) hb, complete_padded (by decide) hk hm]

/-- Those symbols strictly back: the `k` zeros are the residue, and the groups above it are the bytes (R169). -/
theorem convertBits_paddedSymbols :
    Ref.convertBits (integers (bitGroups 5 (bitString 8 b * 2 ^ k) (m * 5))) 5 8 false = .ok b := by
  have hlt : bitString 8 b * 2 ^ k < 2 ^ (m * 5) := by
    rw [← hm, pow_add]
    exact Nat.mul_lt_mul_of_pos_right (bitString_lt hb) (by positivity)
  rw [convertBits_of_inRange (by decide) fun _ => lt_of_mem_bitGroups, bitString_bitGroups (by decide) m hlt,
    bitGroups_length, Nat.mul_div_cancel m (by decide : 0 < 5), ← hm, complete_strict_eq_ok_iff, Nat.mul_add_mod',
    Nat.mod_eq_of_lt (by omega : k < 8)]
  refine ⟨hk, Nat.mul_mod_left .., ?_⟩
  have happend := bitGroups_append (t := 8) (a := bitString 8 b) (b.length * 8) (by decide) (by positivity : 0 < 2 ^ k)
  rwa [bitGroups_bitString (by decide) hb, Nat.mul_mod_left, bitGroups_of_lt (b := 0 + k) _ (by omega),
    List.append_nil] at happend

end

/-- Settles O39: the padding below the bytes' bit string is the strict conversion's zero residue; the other direction
fails by the cases of the strict completion. -/
theorem bytesSurviveTheRoundTrip : Obligations.BytesSurviveTheRoundTrip := by
  refine ⟨fun b => ?bytes, fun g => ?symbols⟩
  case bytes =>
    obtain ⟨m, hm⟩ : ∃ m, m = (8 * b.length + 4) / 5 := ⟨_, rfl⟩
    obtain ⟨k, hk⟩ : ∃ k, k = 5 * m - 8 * b.length := ⟨_, rfl⟩
    have hb : ∀ v ∈ nats b, v < 2 ^ 8 := fun _ => lt_of_mem_nats
    have hsum : (nats b).length * 8 + k = m * 5 := by rw [nats_length]; omega
    have hk5 : k < 5 := by omega
    have hlen : (bitGroups 5 (bitString 8 (nats b) * 2 ^ k) (m * 5)).length = m := by
      rw [bitGroups_length, Nat.mul_div_cancel m (by decide)]
    refine ⟨_, ints_eq_integers b ▸ convertBits_bytes hb hk5 hsum, ?_⟩
    rw [map_cast_eq_integers, hlen, ← hk]
    exact ⟨hm, by omega, fun x => getLast_bitGroups (by decide) hk5.le, convertBits_paddedSymbols hb hk5 hsum⟩
  case symbols =>
    have hg : ∀ v ∈ nats g, v < 2 ^ 5 := fun _ => lt_of_mem_nats
    rw [ints_eq_integers, convertBits_of_inRange (by decide) hg, complete_strict, nats_length, Nat.mul_comm]
    exact ⟨fun h => if_pos h, fun h hne => by rw [if_neg (Nat.not_le.2 h), if_pos hne]⟩

end Sys2Proof.Proofs
end

section
/-! PROOFS. The BC unit's commands (spec 41_convert.md R161 to R163, R166), by the outcomes of a command. -/

namespace Sys2Proof.Proofs

open Sys2Proof Sys2Proof.Machine Sys2Proof.Laws

/-! ### A command's outcome -/

/-- The branch whose conditions hold is the one taken (R270). -/
theorem exec_of_cmdEffect {i : Instr} {s t : State} (h : CmdEffect s i t) : exec i s = .next t := by
  cases h with
  | cfgLegal f g p hf hg => simp [exec, execBcCfg, hf, hg]
  | cfgIllegal f g p hw => rcases hw with hw | hw <;> simp [exec, execBcCfg, hw]
  | pushIgnored v herr => exact if_pos herr
  | pushOutOfRange v hrun hv => simp [exec, execBcPush, hrun, hv]
  | pushOverflows v hrun hv hfull => simp [exec, execBcPush, hrun, hv, hfull]
  | pushAppends v hrun hv hfit => simp [exec, execBcPush, hrun, hv, hfit]
  | flushIgnored herr => exact if_pos herr
  | flushOverflows hrun hpad hbits hfull =>
    simp [exec, execBcFlush, flushPadded, Config.fifoDepth, hrun, hpad, hbits, hfull]
  | flushPads hrun hpad hbits hfit =>
    simp [exec, execBcFlush, flushPadded, Config.fifoDepth, hrun, hpad, hbits, hfit]
  | flushPadsNothing hrun hpad hbits => simp [exec, execBcFlush, flushPadded, hrun, hpad, hbits]
  | flushIllegalPadding hrun hpad hbits => simp [exec, execBcFlush, flushStrict, hrun, hpad, hbits]
  | flushNonZeroPadding hrun hpad hbits hacc =>
    simpa [exec, execBcFlush, flushStrict, hrun, hpad, hbits.not_ge] using fun h => absurd h hacc
  | flushStrict hrun hpad hbits hacc => simp [exec, execBcFlush, flushStrict, hrun, hpad, hbits.not_ge, hacc]
  | _ => rfl

/-! ### `BC_CFG` -/

theorem cfgByte_toNat (f t : BitVec 4) : (cfgByte f t).toNat = 16 * t.toNat + f.toNat := by
  rw [cfgByte, toNat_append_add]
  omega

theorem widthLegal_eq_false_iff (w : BitVec 4) : widthLegal w = false ↔ ¬ (1 ≤ w.toNat ∧ w.toNat ≤ 8) := by
  rw [← widthLegal_iff, Bool.not_eq_true]

/-- Only a legal `BC_CFG` and `RESET` leave phase ERROR (R161). -/
theorem leavesError_of_exec {i : Instr} {s t : State} (h : exec i s = .next t) (hs : s.bc.bcErr ≠ 0)
    (ht : t.bc.bcErr = 0) : i = .reset ∨ ∃ f g p, i = .bcCfg f g p ∧ widthLegal f = true ∧ widthLegal g = true := by
  cases cmdEffect_of_exec h with
  | reset => exact .inl rfl
  | cfgLegal f g p hf hg => exact .inr ⟨f, g, p, rfl, hf, hg⟩
  | cfgIllegal => cases ht
  | pushOutOfRange _ hrun | pushOverflows _ hrun | pushAppends _ hrun | flushOverflows hrun | flushPads hrun
  | flushPadsNothing hrun | flushIllegalPadding hrun | flushNonZeroPadding hrun | flushStrict hrun =>
    exact absurd hrun hs
  | _ => exact absurd ht hs

/-- A push at equal widths, from an empty residue: one group, the value itself (R161). -/
theorem appended_of_equal_widths {v : Byte} {b : BcUnit} (hw : b.fromBits = b.toBits) (ht : 1 ≤ b.toBits.toNat)
    (hbits : b.bits = 0) (hacc : b.acc = 0) (hv : v.toNat < 2 ^ b.toBits.toNat) :
    appended v b = { b with cnt := b.cnt + 1, fifo := b.fifo ++ [v] } := by
  have hn : pushGroups b = 1 := by
    rw [pushGroups, hbits, hw]
    exact (congrArg (· / _) (Nat.zero_add _)).trans (Nat.div_self ht)
  simp [appended, hn, emitGroups, hw, hbits, hacc, and_mask, Nat.mod_eq_of_lt hv, Nat.mod_one]

/-- `PAD` alone replaced. -/
def setPad (p : Bool) (s : State) : State := setBc { s.bc with pad := p } s

/-- A push reads no `PAD` and keeps it (R161). -/
theorem pushEffect_setPad {v : Byte} {s t : State} (p : Bool) (h : CmdEffect s (.bcPush v) t) :
    CmdEffect (setPad p s) (.bcPush v) (setPad p t) := by
  cases h with
  | pushIgnored _ herr => exact .pushIgnored v herr
  | pushOutOfRange _ hrun hv => exact .pushOutOfRange v hrun hv
  | pushOverflows _ hrun hv hfull => exact .pushOverflows v hrun hv hfull
  | pushAppends _ hrun hv hfit => exact .pushAppends v hrun hv hfit

/-- Settles O31: the two outcomes of `BC_CFG`, what leaves phase ERROR, and the pushes R161 speaks of. -/
theorem bcCfgConfiguresOrRecordsBadConfig : Obligations.BcCfgConfiguresOrRecordsBadConfig := by
  refine ⟨fun f t p s => ?cfg, fun i s t => leavesError_of_exec, fun v s hw ht hbits hacc hrun hv hlen => ?equal,
    fun v p s t h => exec_of_cmdEffect (pushEffect_setPad p (cmdEffect_of_exec h))⟩
  case cfg =>
    obtain ⟨s', h⟩ := exec_completes (.bcCfg f t p) s
    refine ⟨s', h, (perform_write_encoded (encode_bcCfg_toNat f t p) s).trans h, ?_⟩
    cases cmdEffect_of_exec h with
    | cfgLegal _ _ _ hf ht =>
      rw [if_pos ⟨(widthLegal_iff f).1 hf, (widthLegal_iff t).1 ht⟩]
      exact ⟨rfl, rfl, rfl, rfl, rfl, rfl, rfl, rfl, rfl, rfl, rfl, rfl, rfl, rfl⟩
    | cfgIllegal _ _ _ hw =>
      rw [widthLegal_eq_false_iff, widthLegal_eq_false_iff, ← not_and_or] at hw
      rw [if_neg hw, ← cfgByte_toNat]
      exact ⟨rfl, rfl, rfl, rfl, rfl⟩
  case equal =>
    have hpos := ((widthLegal_iff _).1 ht).1
    have hrange : outOfRange v s.bc = false := by
      rw [← Bool.not_eq_true, outOfRange_iff, Nat.not_le]
      exact hv
    have hfit : pushNoSpace s.bc = false := by
      rw [← Bool.not_eq_true, pushNoSpace_iff s.bc hlen.le, hw, hbits]
      simp [Nat.div_self hpos]
      omega
    rw [exec_of_cmdEffect (.pushAppends v hrun hrange hfit), appended_of_equal_widths hw hpos hbits hacc (hw ▸ hv)]
    rfl

/-! ### `BC_PUSH` -/

/-- The new entries are the groups of the appended bits (R162). -/
theorem appended_fifo {v : Byte} {b : BcUnit} (hv : outOfRange v b = false) :
    (appended v b).fifo = b.fifo ++ (bitGroups b.toBits.toNat (b.acc.toNat * 2 ^ b.fromBits.toNat + v.toNat)
      (b.bits.toNat + b.fromBits.toNat)).map (BitVec.ofNat 8) := by
  rw [appended, append_value v b hv]
  simp only [emitGroups_groups, bitGroups, List.map_map]
  rfl

/-- The residue is the bits below the groups (R162). -/
theorem appended_acc {v : Byte} {b : BcUnit} (hv : outOfRange v b = false)
    (ht : 1 ≤ b.toBits.toNat ∧ b.toBits.toNat ≤ 8) :
    (appended v b).acc.toNat = (b.acc.toNat * 2 ^ b.fromBits.toNat + v.toNat) %
      2 ^ ((b.bits.toNat + b.fromBits.toNat) % b.toBits.toNat) := by
  have hlt := Nat.mod_lt (b.bits.toNat + b.fromBits.toNat) ht.1
  have hpow : 2 ^ ((b.bits.toNat + b.fromBits.toNat) % b.toBits.toNat) ≤ 2 ^ 7 :=
    Nat.pow_le_pow_right two_pos (by omega)
  rw [appended, append_value v b hv]
  simp only [emitGroups_bits, left_bits, and_mask, BitVec.toNat_ofNat]
  exact Nat.mod_eq_of_lt ((Nat.mod_lt _ (by positivity)).trans_le hpow)

/-- Settles O32: each outcome of a push is the case its conditions name. -/
theorem bcPushAppendsOneValue : Obligations.BcPushAppendsOneValue := by
  intro v s hinv
  obtain ⟨t, h⟩ := exec_completes (.bcPush v) s
  refine ⟨t, h, (perform_write_encoded (encode_bcPush_toNat v) s).trans h, ?_⟩
  dsimp only
  cases cmdEffect_of_exec h with
  | pushIgnored _ herr => rw [if_pos herr]
  | pushOutOfRange _ hrun hv =>
    rw [if_neg (not_not.2 hrun), if_pos ((outOfRange_iff v s.bc).1 hv)]
    simp [bcError, setBc, errDataOutOfRange]
  | pushOverflows _ hrun hv hfull =>
    rw [← Bool.not_eq_true, outOfRange_iff] at hv
    rw [if_neg (not_not.2 hrun), if_neg hv, if_pos ((pushNoSpace_iff s.bc hinv.fifoShort).1 hfull)]
    rfl
  | pushAppends _ hrun hv hfit =>
    have hv' := (outOfRange_iff v s.bc).not.1 (by simp [hv])
    have hfit' := (pushNoSpace_iff s.bc hinv.fifoShort).not.1 (by simp [hfit])
    rw [if_neg (not_not.2 hrun), if_neg hv', if_neg hfit']
    refine ⟨rfl, rfl, ?_, appended_bits v s.bc hinv.toLegal, appended_acc hv hinv.toLegal, BitVec.toNat_add ..⟩
    rw [setBc_bc, appended_fifo hv, bitGroups, List.map_map]
    rfl

/-! ### `BC_FLUSH` -/

/-- Settles O33: each outcome of a flush is the case its conditions name. -/
theorem bcFlushCompletesTheConversion : Obligations.BcFlushCompletesTheConversion := by
  intro s hinv
  obtain ⟨t, h⟩ := exec_completes .bcFlush s
  refine ⟨t, h, (perform_write_encoded (i := .bcFlush) rfl s).trans h, ?_⟩
  dsimp only
  cases cmdEffect_of_exec h with
  | flushIgnored herr => rw [if_pos herr]
  | flushOverflows hrun hpad hbits hfull =>
    rw [if_neg (not_not.2 hrun), if_pos hpad, if_neg hbits.ne', if_pos hfull]
    rfl
  | flushPads hrun hpad hbits hfit =>
    rw [if_neg (not_not.2 hrun), if_pos hpad, if_neg hbits.ne', if_neg hfit,
      ← paddedGroup_toNat s.bc hinv.bitsBelow hinv.toLegal.2 hinv.accBelow, BitVec.ofNat_toNat, BitVec.setWidth_eq]
    rfl
  | flushPadsNothing hrun hpad hbits =>
    rw [if_neg (not_not.2 hrun), if_pos hpad, if_pos hbits]
    rfl
  | flushIllegalPadding hrun hpad hbits =>
    rw [if_neg (not_not.2 hrun), if_neg (by simp [hpad]), if_pos hbits]
    simp [bcError, setBc, errIllegalPadding]
  | flushNonZeroPadding hrun hpad hbits hacc =>
    rw [if_neg (not_not.2 hrun), if_neg (by simp [hpad]), if_neg hbits.not_ge, if_pos hacc]
    simp [bcError, setBc, errNonZeroPadding]
  | flushStrict hrun hpad hbits hacc =>
    rw [if_neg (not_not.2 hrun), if_neg (by simp [hpad]), if_neg hbits.not_ge, if_neg (not_not.2 hacc)]
    rfl

/-! ### Group counts -/

/-- One push completes at most 8 groups (R166). -/
theorem pushCount_le {b f g : Nat} (hb : b < g) (hf : f ≤ 8) : (b + f) / g ≤ 8 :=
  Nat.div_le_of_le_mul (by omega)

/-- Only single bits out of whole bytes make 8 groups (R166). -/
theorem widths_of_pushCount_eq {b f g : Nat} (hb : b < g) (hf : f ≤ 8) (hn : (b + f) / g = 8) : f = 8 ∧ g = 1 := by
  have hle := Nat.div_mul_le_self (b + f) g
  rw [hn] at hle
  omega

/-- Settles O34: the counts are quotients of small sums, and an empty queue has room for 8 groups. -/
theorem onePushFitsAnEmptyFifo : Obligations.OnePushFitsAnEmptyFifo := by
  intro s hinv f g n
  have hb : s.bc.bits.toNat < g := hinv.bitsBelow
  have hf : f ≤ 8 := hinv.fromLegal.2
  refine ⟨Nat.div_le_div_right (by omega), pushCount_le hb hf, widths_of_pushCount_eq hb hf, fun hf8 hg5 => ?_,
    fun hf5 hg8 => ?_, fun v t hrun hv hempty h => ?push, fun t _ hpad h => ?flush⟩
  · rw [show n = (s.bc.bits.toNat + 8) / 5 by simp only [n, hf8, hg5]]
    omega
  · rw [show n = (s.bc.bits.toNat + 5) / 8 by simp only [n, hf5, hg8]]
    omega
  case push =>
    cases cmdEffect_of_exec h with
    | pushIgnored _ herr => exact absurd hrun herr
    | pushOutOfRange _ _ hout => exact absurd hv (Nat.not_lt.2 ((outOfRange_iff v s.bc).1 hout))
    | pushOverflows _ _ _ hfull =>
      rw [pushNoSpace_iff s.bc hinv.fifoShort, hempty] at hfull
      exact absurd (pushCount_le hb hf) (Nat.not_le.2 (by simpa using hfull))
    | pushAppends => exact ⟨rfl, rfl, by rw [setBc_bc, appended_fifo_length, hempty, List.length_nil, Nat.zero_add]⟩
  case flush =>
    cases cmdEffect_of_exec h with
    | flushIgnored | flushOverflows | flushPadsNothing => exact Nat.le_succ _
    | flushPads => simp [startConversion]
    | flushIllegalPadding _ hstrict | flushNonZeroPadding _ hstrict | flushStrict _ hstrict =>
      exact absurd (hpad.symm.trans hstrict) (by decide)

end Sys2Proof.Proofs
end

section
/-! PROOFS. The values of a conversion (spec 41_convert.md R165): the BC unit after the values driven in so far, however the
host reads in between. -/

namespace Sys2Proof.Proofs

open Sys2Proof Sys2Proof.Machine Sys2Proof.Laws

/-! ### The BC unit's invariants -/

/-- The invariants that speak of the BC unit, whatever the other partitions hold. -/
def BcInv (b : BcUnit) : Prop := BlockInv (setBc b State.reset)

theorem bcInv_of_blockInv {s : State} (h : BlockInv s) : BcInv s.bc :=
  { h with noCause := fun _ => rfl, cause := nofun }

theorem bcInv_configured {f t : BitVec 4} (hf : widthLegal f = true) (ht : widthLegal t = true) (p : Bool) :
    BcInv (configured f t p) :=
  blockInv_configured invariantsHoldAfterReset hf ht p

/-- A BC command reads the BC unit alone, so it keeps the unit's invariants from every state (R30). -/
theorem bcInv_of_exec {i : Instr} {s t : State} (hi : isBcCommand i = true) (hs : BcInv s.bc) (h : exec i s = .next t) :
    BcInv t.bc := by
  obtain ⟨t', h'⟩ := exec_completes i (setBc s.bc State.reset)
  rw [(bcCommand_agrees hi (setBc_bc State.reset s.bc).symm h h').1]
  exact bcInv_of_blockInv (blockInv_cmdEffect hs (cmdEffect_of_exec h'))

/-! ### Reads between the commands -/

/-- Reads took `out` off the queue of `b` and left `b'` (R164). -/
def Popped (b : BcUnit) (out : List Byte) (b' : BcUnit) : Prop := b = { b' with fifo := out ++ b'.fifo }

theorem popped_refl (b : BcUnit) : Popped b [] b := rfl

theorem popped_cons {b b' : BcUnit} {e : Byte} {q out : List Byte} (hb : b.fifo = e :: q)
    (h : Popped { b with fifo := q } out b') : Popped b (e :: out) b' := by
  cases b
  cases hb
  cases h
  rfl

/-- Nothing can be read from an empty queue. -/
theorem eq_of_popped {b b' : BcUnit} {out : List Byte} (h : Popped b out b') (hb : b.fifo = []) : b' = b := by
  cases h
  obtain ⟨rfl, hfifo⟩ := List.append_eq_nil_iff.1 hb
  rfl

theorem bcInv_of_popped {b b' : BcUnit} {out : List Byte} (h : Popped b out b') (hb : BcInv b) : BcInv b' := by
  cases h
  exact
    { hb with
      fifoShort := (List.length_append ▸ Nat.le_add_left _ _).trans hb.fifoShort
      fifoBelow := fun e he => hb.fifoBelow e (List.mem_append_right _ he)
      errEmpty := fun herr => (List.append_eq_nil_iff.1 (hb.errEmpty herr)).2 }

/-- A `VALID` read of `BC_OUT` takes the oldest entry off (R53, R164). -/
theorem fifo_of_valid {s : State} (h : (hostRead .bcOut s).1.getLsbD 8 = true) :
    ∃ q, s.bc.fifo = (hostRead .bcOut s).1.extractLsb' 0 8 :: q ∧ (hostRead .bcOut s).2.bc = { s.bc with fifo := q } := by
  rcases hq : s.bc.fifo with _ | ⟨e, q⟩
  · rw [hostRead_out_nil hq] at h
    exact absurd (show (0 : Word).getLsbD 8 = true from h) (by decide)
  · rw [hostRead_out_cons hq]
    exact ⟨q, by rw [(outEntry_fields e).2], by simp [hq]⟩

/-- With no command left, the host has only read. -/
theorem popped_of_drives {s s2 : State} {out : List Byte} (h : Drives [] s out s2) : Popped s.bc out s2.bc := by
  generalize hi : ([] : List Instr) = is at h
  induction h with
  | done => exact popped_refl _
  | other _ _ hbc _ ih => exact hbc ▸ ih hi
  | read hv _ ih =>
    obtain ⟨q, hq, hbc⟩ := fifo_of_valid hv
    exact popped_cons hq (hbc ▸ ih hi)
  | command => cases hi

/-- The next command is reached by reads (R168). -/
theorem drives_cons {i : Instr} {is : List Instr} {s s2 : State} {out : List Byte} (h : Drives (i :: is) s out s2) :
    ∃ s1 t out1 out2, Drives [] s out1 s1 ∧ rejectedForSpace i s1 = false ∧ exec i s1 = .next t ∧ Drives is t out2 s2 ∧
      out1 ++ out2 = out := by
  generalize hi : i :: is = js at h
  induction h with
  | done => cases hi
  | other t hp hbc _ ih =>
    obtain ⟨s1, u, out1, out2, h1, hr, he, h2, rfl⟩ := ih hi
    exact ⟨s1, u, out1, out2, .other t hp hbc h1, hr, he, h2, rfl⟩
  | read hv _ ih =>
    obtain ⟨s1, u, out1, out2, h1, hr, he, h2, rfl⟩ := ih hi
    exact ⟨s1, u, _, out2, .read hv h1, hr, he, h2, rfl⟩
  | command hr he h2 =>
    cases hi
    exact ⟨_, _, [], _, .done _, hr, he, h2, rfl⟩

/-! ### Rejection -/

/-- A push that overflows is one rejected for space (R162). -/
theorem rejectedForSpace_push {s : State} {v : Byte} (hinv : BcInv s.bc) (hrun : s.bc.bcErr = 0)
    (hv : outOfRange v s.bc = false) (hfull : pushNoSpace s.bc = true) : rejectedForSpace (.bcPush v) s = true := by
  rw [← Bool.not_eq_true, outOfRange_iff, Nat.not_le] at hv
  rw [pushNoSpace_iff s.bc hinv.fifoShort] at hfull
  simp [rejectedForSpace, hrun, hv, hfull]

/-- A flush that overflows is one rejected for space (R163). -/
theorem rejectedForSpace_flush {s : State} (hrun : s.bc.bcErr = 0) (hpad : s.bc.pad = true)
    (hbits : 0 < s.bc.bits.toNat) (hfull : s.bc.fifo.length = 8) : rejectedForSpace .bcFlush s = true := by
  have hne : s.bc.bits ≠ 0 := fun h => by rw [h] at hbits; exact absurd hbits (by decide)
  simpa [rejectedForSpace, hrun, hpad, hfull] using hne

/-! ### The values driven in so far -/

/-- The BC unit `b` after the values `vs`, of which the host has read the groups `out`: in phase RUN, and the residue
and the groups are those of the values' bit string (R165). -/
structure Converted (f t : BitVec 4) (p : Bool) (vs out : List Byte) (b : BcUnit) : Prop where
  inv : BcInv b
  run : b.bcErr = 0
  fromBits : b.fromBits = f
  toBits : b.toBits = t
  pad : b.pad = p
  cnt : b.cnt = BitVec.ofNat 16 vs.length
  bits : b.bits.toNat = vs.length * f.toNat % t.toNat
  acc : b.acc.toNat = bitString f.toNat (nats vs) % 2 ^ b.bits.toNat
  groups : nats (out ++ b.fifo) = bitGroups t.toNat (bitString f.toNat (nats vs)) (vs.length * f.toNat)

section
variable {f t : BitVec 4} {p : Bool} {vs out : List Byte}

theorem converted_configured (hf : widthLegal f = true) (ht : widthLegal t = true) :
    Converted f t p [] [] (configured f t p) where
  inv := bcInv_configured hf ht p
  run := rfl
  fromBits := rfl
  toBits := rfl
  pad := rfl
  cnt := rfl
  bits := (Nat.zero_mul _).symm ▸ (Nat.zero_mod _).symm
  acc := rfl
  groups := (Nat.zero_mul f.toNat).symm ▸ (bitGroups_of_lt _ ((widthLegal_iff t).1 ht).1).symm

theorem converted_popped {b b' : BcUnit} {q : List Byte} (h : Converted f t p vs out b) (hq : Popped b q b') :
    Converted f t p vs (out ++ q) b' := by
  have hinv := bcInv_of_popped hq h.inv
  cases hq
  exact { h with inv := hinv, groups := List.append_assoc out q _ ▸ h.groups }

/-- Bits below a residue are the same bits below the whole string. -/
theorem append_mod (a v b f : Nat) : (a % 2 ^ b * 2 ^ f + v) % 2 ^ (b + f) = (a * 2 ^ f + v) % 2 ^ (b + f) := by
  rw [pow_add, ← Nat.mul_mod_mul_right, Nat.mod_add_mod]

theorem append_mod_of_le {m b f : Nat} (a v : Nat) (hm : m ≤ b + f) :
    (a % 2 ^ b * 2 ^ f + v) % 2 ^ m = (a * 2 ^ f + v) % 2 ^ m := by
  have hdvd := Nat.pow_dvd_pow 2 hm
  rw [← Nat.mod_mod_of_dvd _ hdvd, append_mod, Nat.mod_mod_of_dvd _ hdvd]

theorem bitGroups_append_mod {t : Nat} (a v b f : Nat) (ht : 1 ≤ t) :
    bitGroups t (a % 2 ^ b * 2 ^ f + v) (b + f) = bitGroups t (a * 2 ^ f + v) (b + f) := by
  rw [← bitGroups_mod _ _ _ ht, append_mod, bitGroups_mod _ _ _ ht]

/-- Numbers below `2^8` survive the way through bytes. -/
theorem nats_map_ofNat {l : List Nat} (hl : ∀ x ∈ l, x < 2 ^ 8) : nats (l.map (BitVec.ofNat 8)) = l := by
  rw [nats, List.map_map]
  exact (List.map_congr_left fun x hx => Nat.mod_eq_of_lt (hl x hx)).trans (List.map_id' l)

theorem bitString_nats_append_singleton {w : Nat} (f : Nat) (vs : List (BitVec w)) (v : BitVec w) :
    bitString f (nats (vs ++ [v])) = bitString f (nats vs) * 2 ^ f + v.toNat := by
  rw [nats_append]
  exact bitString_append_singleton ..

/-- An accepted push takes its value in (R162, R165). -/
theorem converted_appended {b : BcUnit} {v : Byte} (h : Converted f t p vs out b) (hv : outOfRange v b = false)
    (hinv : BcInv (appended v b)) : Converted f t p (vs ++ [v]) out (appended v b) := by
  obtain rfl := h.fromBits
  obtain rfl := h.toBits
  have ht : 1 ≤ b.toBits.toNat ∧ b.toBits.toNat ≤ 8 := h.inv.toLegal
  have hv' : v.toNat < 2 ^ b.fromBits.toNat := Nat.not_le.1 ((outOfRange_iff v b).not.1 (by simp [hv]))
  have hlen : (vs ++ [v]).length * b.fromBits.toNat = vs.length * b.fromBits.toNat + b.fromBits.toNat := by
    rw [List.length_append, List.length_singleton, Nat.succ_mul]
  have hbyte : ∀ a n, ∀ x ∈ bitGroups b.toBits.toNat a n, x < 2 ^ 8 := fun _ _ _ hx =>
    (lt_of_mem_bitGroups hx).trans_le (Nat.pow_le_pow_right two_pos ht.2)
  exact
    { h with
      inv := hinv
      cnt := by rw [appended_cnt, h.cnt, List.length_append, List.length_singleton, BitVec.ofNat_add]; rfl
      bits := by rw [appended_bits v b ht, h.bits, Nat.mod_add_mod, hlen]
      acc := by
        rw [appended_acc hv ht, appended_bits v b ht, h.acc, bitString_nats_append_singleton,
          append_mod_of_le _ _ (Nat.mod_le ..)]
      groups := by
        rw [appended_fifo hv, ← List.append_assoc, nats_append, h.groups, nats_map_ofNat (hbyte _ _), h.acc,
          bitGroups_append_mod _ _ _ _ ht.1, h.bits, bitString_nats_append_singleton, hlen,
          bitGroups_append (vs.length * _) ht.1 hv'] }

/-- A push that is not rejected takes an in-range value in. -/
theorem converted_push {s u : State} {v : Byte} (h : Converted f t p vs out s.bc) (hv : v.toNat < 2 ^ f.toNat)
    (hfit : rejectedForSpace (.bcPush v) s = false) (hx : exec (.bcPush v) s = .next u) :
    Converted f t p (vs ++ [v]) out u.bc := by
  have hinv := bcInv_of_exec rfl h.inv hx
  cases cmdEffect_of_exec hx with
  | pushIgnored _ herr => exact absurd h.run herr
  | pushOutOfRange _ _ hout =>
    rw [outOfRange_iff, h.fromBits] at hout
    exact absurd hv (Nat.not_lt.2 hout)
  | pushOverflows _ hrun hrange hfull => exact absurd (rejectedForSpace_push h.inv hrun hrange hfull) (by simp [hfit])
  | pushAppends _ _ hrange => exact converted_appended h hrange hinv

/-- In-range values take their place in the bit string, however the host reads between them (R165). -/
theorem converted_of_drives {is : List Instr} {s s2 : State} {ws q : List Byte} (h : Converted f t p vs out s.bc)
    (hws : ∀ v ∈ ws, v.toNat < 2 ^ f.toNat) (hd : Drives (ws.map .bcPush ++ is) s q s2) :
    ∃ s1 q1 q2, Drives is s1 q2 s2 ∧ q1 ++ q2 = q ∧ Converted f t p (vs ++ ws) (out ++ q1) s1.bc := by
  induction ws generalizing vs out s q with
  | nil => exact ⟨s, [], q, hd, rfl, by simpa using h⟩
  | cons v ws ih =>
    obtain ⟨hv, hws⟩ := List.forall_mem_cons.1 hws
    obtain ⟨s', u, q1, q2, hread, hfit, hx, hd', rfl⟩ := drives_cons hd
    have hu := converted_push (converted_popped h (popped_of_drives hread)) hv hfit hx
    obtain ⟨s1, q3, q4, hd1, rfl, h1⟩ := ih hu hws hd'
    exact ⟨s1, q1 ++ q3, q4, hd1, List.append_assoc .., by simpa using h1⟩

end

/-- A legal `BC_CFG` has one outcome (R161). -/
theorem exec_bcCfg_of_legal {f t : BitVec 4} (hf : widthLegal f = true) (ht : widthLegal t = true) (p : Bool)
    (s : State) : exec (.bcCfg f t p) s = .next (setBc (configured f t p) s) :=
  exec_of_cmdEffect (.cfgLegal f t p hf ht)

/-- Settles O36: the source's loop leaves the bit string and its groups, and so does the BC unit. -/
theorem theResidueIsTheSourcesAccumulator : Obligations.TheResidueIsTheSourcesAccumulator := by
  intro f t p vs s s1 s2 out acc bits ret hf1 hf8 ht1 ht8 hcfg hd hfeed
  have hf := (widthLegal_iff f).2 ⟨hf1, hf8⟩
  have ht := (widthLegal_iff t).2 ⟨ht1, ht8⟩
  cases (exec_bcCfg_of_legal hf ht p s).symm.trans hcfg
  rw [ints_eq_integers] at hfeed
  have hvs := lt_of_feed_eq_ok hfeed
  have hsource := feed_integers_append ht1 hvs []
  rw [List.append_nil, hfeed, nats_length] at hsource
  cases hsource
  rw [← List.append_nil (vs.map _)] at hd
  obtain ⟨s', q1, q2, hread, rfl, h⟩ :=
    converted_of_drives (converted_configured hf ht) (fun v hv => hvs _ (List.mem_map_of_mem hv)) hd
  have h2 := converted_popped h (popped_of_drives hread)
  rw [List.nil_append, List.nil_append] at h2
  refine ⟨h2.bits, h2.bits ▸ h2.acc, h2.groups, h2.inv.bitsBelow, h2.inv.accBelow, fun e he => ?_⟩
  have hmem : e.toNat ∈ nats (q1 ++ q2 ++ s2.bc.fifo) := List.mem_map_of_mem he
  rw [h2.groups] at hmem
  exact lt_of_mem_bitGroups hmem

end Sys2Proof.Proofs
end

section
/-! PROOFS. The end of a conversion (spec 41_convert.md R163, R168) and the host that drains after every push
(46_host_procedures.md R226 to R229, 70_reset_and_hazards.md R295). -/

namespace Sys2Proof.Proofs

open Sys2Proof Sys2Proof.Machine Sys2Proof.Laws

/-! ### The completion -/

/-- The BC unit `b`, with the groups `out` read, shows the source's result `r` (R168). -/
def Shows (r : Except Ref.ConvError (List Nat)) (out : List Byte) (b : BcUnit) : Prop :=
  match r with
  | .ok ret => b.bcErr = 0 ∧ nats (out ++ b.fifo) = ret
  | .error (.dataOutOfRange idx v) =>
    b.bcErr = 1 ∧ b.errIdx.toNat = idx ∧ (b.errVal.toNat : Int) = v ∧ b.cnt.toNat = idx ∧ b.fifo = []
  | .error .illegalPadding => b.bcErr = 2
  | .error .nonZeroPadding => b.bcErr = 3

theorem shows_popped {r : Except Ref.ConvError (List Nat)} {out q : List Byte} {b b' : BcUnit} (h : Shows r out b)
    (hq : Popped b q b') : Shows r (out ++ q) b' := by
  cases hq
  match r, h with
  | .ok _, ⟨hrun, hout⟩ => exact ⟨hrun, List.append_assoc out q _ ▸ hout⟩
  | .error (.dataOutOfRange ..), ⟨herr, hidx, hval, hcnt, hfifo⟩ =>
    exact ⟨herr, hidx, hval, hcnt, (List.append_eq_nil_iff.1 hfifo).2⟩
  | .error .illegalPadding, herr => exact herr
  | .error .nonZeroPadding, herr => exact herr

section
variable {f t : BitVec 4} {p : Bool} {vs out : List Byte} {s u : State}

/-- The padded group of a residue is the source's (R160, R163). -/
theorem nats_paddedGroup {a : Nat} {b : BcUnit} (ht : b.toBits.toNat ≤ 8) (hacc : b.acc.toNat = a % 2 ^ b.bits.toNat) :
    nats [paddedGroup b] = [(a &&& mask b.bits.toNat) <<< (b.toBits.toNat - b.bits.toNat) &&& mask b.toBits.toNat] := by
  rw [and_mask a, ← hacc]
  refine nats_map_ofNat (l := [_]) fun x hx => ?_
  rw [List.mem_singleton.1 hx, and_mask]
  exact (Nat.mod_lt _ (by positivity)).trans_le (Nat.pow_le_pow_right two_pos ht)

/-- A flush that is not rejected completes as the source does (R160, R163). -/
theorem shows_flush (h : Converted f t p vs out s.bc) (hfit : rejectedForSpace .bcFlush s = false)
    (hx : exec .bcFlush s = .next u) :
    Shows (Ref.complete f.toNat t.toNat p (bitString f.toNat (nats vs)) (vs.length * f.toNat % t.toNat)
      (bitGroups t.toNat (bitString f.toNat (nats vs)) (vs.length * f.toNat))) out u.bc := by
  rw [← h.bits, ← h.groups]
  obtain rfl := h.fromBits
  obtain rfl := h.toBits
  obtain rfl := h.pad
  cases cmdEffect_of_exec hx with
  | flushIgnored herr => exact absurd h.run herr
  | flushOverflows hrun hpad hbits hfull => exact absurd (rejectedForSpace_flush hrun hpad hbits hfull) (by simp [hfit])
  | flushPads _ hpad hbits _ =>
    rw [hpad, Ref.complete, if_pos rfl, if_pos hbits]
    refine ⟨h.run, ?_⟩
    have ht : s.bc.toBits.toNat ≤ 8 := h.inv.toLegal.2
    rw [← nats_paddedGroup ht h.acc, ← nats_append, List.append_assoc]
    rfl
  | flushPadsNothing _ hpad hbits =>
    rw [hpad, Ref.complete, if_pos rfl, if_neg (by omega)]
    exact ⟨h.run, rfl⟩
  | flushIllegalPadding _ hpad hbits =>
    rw [hpad, complete_strict, if_pos hbits]
    rfl
  | flushNonZeroPadding _ hpad hbits hacc =>
    rw [hpad, complete_strict, if_neg hbits.not_ge, if_pos]
    · rfl
    · rw [← h.acc]
      exact fun h0 => hacc (BitVec.eq_of_toNat_eq h0)
  | flushStrict _ hpad hbits hacc =>
    rw [hpad, complete_strict, if_neg hbits.not_ge, if_neg]
    · exact ⟨h.run, rfl⟩
    · rw [← h.acc, hacc]
      simp

end

/-! ### Phase ERROR -/

/-- The commands of a conversion after its `BC_CFG`. -/
def IsPushOrFlush (i : Instr) : Prop := i = .bcFlush ∨ ∃ v, i = .bcPush v

theorem isPushOrFlush_of_mem {vs : List Byte} {i : Instr} (hi : i ∈ vs.map Instr.bcPush ++ [.bcFlush]) :
    IsPushOrFlush i := by
  rcases List.mem_append.1 hi with hi | hi
  · obtain ⟨v, -, rfl⟩ := List.mem_map.1 hi
    exact .inr ⟨v, rfl⟩
  · exact .inl (List.mem_singleton.1 hi)

/-- In phase ERROR a push and a flush do nothing (R162, R163). -/
theorem exec_of_error {i : Instr} {s : State} (herr : s.bc.bcErr ≠ 0) (hi : IsPushOrFlush i) :
    exec i s = .next s := by
  rcases hi with rfl | ⟨v, rfl⟩
  · exact exec_of_cmdEffect (.flushIgnored herr)
  · exact exec_of_cmdEffect (.pushIgnored v herr)

/-- From an error with nothing queued, the rest of the conversion leaves the BC unit as it is (R168). -/
theorem bc_of_drives_error {is : List Instr} {s s2 : State} {out : List Byte} (herr : s.bc.bcErr ≠ 0)
    (hfifo : s.bc.fifo = []) (his : ∀ i ∈ is, IsPushOrFlush i) (hd : Drives is s out s2) :
    s2.bc = s.bc := by
  induction is generalizing s out with
  | nil => exact eq_of_popped (popped_of_drives hd) hfifo
  | cons i is ih =>
    obtain ⟨hi, his⟩ := List.forall_mem_cons.1 his
    obtain ⟨s1, u, q1, q2, hread, -, hx, hd', -⟩ := drives_cons hd
    have h1 := eq_of_popped (popped_of_drives hread) hfifo
    rw [← h1] at herr hfifo
    cases (exec_of_error herr hi).symm.trans hx
    rw [ih herr hfifo his hd', h1]

/-! ### A whole conversion -/

section
variable {f t : BitVec 4} {p : Bool} {vs out : List Byte} {s s2 : State}

/-- An out-of-range value stops the conversion with its index and itself (R162, R168). -/
theorem shows_outOfRange {ws q : List Byte} {v : Byte} (h : Converted f t p vs out s.bc) (hlen : vs.length < 2 ^ 16)
    (hv : 2 ^ f.toNat ≤ v.toNat) (hd : Drives (.bcPush v :: (ws.map .bcPush ++ [.bcFlush])) s q s2) (out' : List Byte) :
    Shows (.error (.dataOutOfRange vs.length v.toNat)) out' s2.bc := by
  obtain ⟨s1, u, q1, q2, hread, -, hx, hd', -⟩ := drives_cons hd
  have h1 := converted_popped h (popped_of_drives hread)
  have hout : outOfRange v s1.bc = true := (outOfRange_iff v s1.bc).2 (h1.fromBits ▸ hv)
  cases (exec_of_cmdEffect (.pushOutOfRange v h1.run hout)).symm.trans hx
  have herr : errDataOutOfRange ≠ 0 := by decide
  have hcnt : s1.bc.cnt.toNat = vs.length := h1.cnt ▸ Nat.mod_eq_of_lt hlen
  rw [bc_of_drives_error herr rfl (fun _ => isPushOrFlush_of_mem) hd', bcError_bc, hcnt]
  exact ⟨rfl, Nat.mod_eq_of_lt hlen, congrArg Nat.cast (Nat.mod_eq_of_lt v.isLt), hcnt, rfl⟩

/-- From a fresh conversion to the accepted flush, the BC unit comes to show `convert_bits` (R168). -/
theorem shows_convertBits (hf : widthLegal f = true) (ht : widthLegal t = true) (hlen : vs.length < 2 ^ 16)
    (hs : s.bc = configured f t p) (hd : Drives (vs.map .bcPush ++ [.bcFlush]) s out s2) :
    Shows (Ref.convertBits (ints vs) f.toNat t.toNat p) out s2.bc := by
  have ht1 := ((widthLegal_iff t).1 ht).1
  have h0 : Converted f t p [] [] s.bc := hs ▸ converted_configured hf ht
  rw [ints_eq_integers]
  rcases hfind : vs.find? fun v => decide (2 ^ f.toNat ≤ v.toNat) with _ | v
  · have hvs : ∀ v ∈ vs, v.toNat < 2 ^ f.toNat := by simpa using hfind
    obtain ⟨s1, q1, q2, hd1, rfl, h1⟩ := converted_of_drives h0 hvs hd
    obtain ⟨s3, u, q3, q4, hread, hfit, hx, hd2, rfl⟩ := drives_cons hd1
    have hflush := shows_flush (converted_popped h1 (popped_of_drives hread)) hfit hx
    have hnats : ∀ x ∈ nats vs, x < 2 ^ f.toNat := List.forall_mem_map.2 hvs
    rw [convertBits_of_inRange ht1 hnats, nats_length]
    simpa using shows_popped hflush (popped_of_drives hd2)
  · obtain ⟨hv, before, after, rfl, hbefore⟩ := List.find?_eq_some_iff_append.1 hfind
    have hv : 2 ^ f.toNat ≤ v.toNat := of_decide_eq_true hv
    have hws : ∀ v ∈ before, v.toNat < 2 ^ f.toNat := by simpa using hbefore
    have hnats : ∀ x ∈ nats before, x < 2 ^ f.toNat := List.forall_mem_map.2 hws
    have hsplit : integers (nats (before ++ v :: after)) =
        integers (nats before) ++ (v.toNat : Int) :: integers (nats after) := by
      rw [nats_append, integers_append]
      rfl
    rw [List.map_append, List.append_assoc] at hd
    obtain ⟨s1, q1, q2, hd1, rfl, h1⟩ := converted_of_drives h0 hws hd
    rw [List.length_append] at hlen
    rw [hsplit, convertBits_of_outOfRange ht1 hnats hv, nats_length]
    exact shows_outOfRange h1 (by rw [List.nil_append]; omega) hv hd1 _

end

/-- Settles O37: in-range values fill the bit string and the flush completes it, or the first value out of range stops
the conversion. -/
theorem aConversionIsConvertBits : Obligations.AConversionIsConvertBits := by
  refine ⟨fun f t p vs s s1 s2 out hf1 hf8 ht1 ht8 hlen hcfg hd => ?_, fun s herr =>
    ⟨fun v => exec_of_error herr (.inr ⟨v, rfl⟩), exec_of_error herr (.inl rfl)⟩⟩
  have hf := (widthLegal_iff f).2 ⟨hf1, hf8⟩
  have ht := (widthLegal_iff t).2 ⟨ht1, ht8⟩
  cases (exec_bcCfg_of_legal hf ht p s).symm.trans hcfg
  exact shows_convertBits hf ht hlen rfl hd

/-! ### The host that drains after every push -/

/-- One part of a run after another. -/
theorem drives_append {is js : List Instr} {s s1 s2 : State} {out q : List Byte} (h : Drives is s out s1)
    (h' : Drives js s1 q s2) : Drives (is ++ js) s (out ++ q) s2 := by
  induction h with
  | done => exact h'
  | other t hp hbc _ ih => exact .other t hp hbc (ih h')
  | read hv _ ih => exact .read hv (ih h')
  | command hfit hx _ ih => exact .command hfit hx (ih h')

/-- A read of `BC_OUT` that is not `VALID` takes nothing off (R164). -/
theorem bc_of_not_valid {s : State} (h : ¬ (hostRead .bcOut s).1.getLsbD 8 = true) :
    (hostRead .bcOut s).2.bc = s.bc := by
  rcases hq : s.bc.fifo with _ | ⟨e, q⟩
  · rw [hostRead_out_nil hq]
    rfl
  · rw [hostRead_out_cons hq] at h
    exact absurd (outEntry_fields e).1 h

/-- Draining is reading `BC_OUT`, the last time for nothing (R295). -/
theorem drives_drainUpTo (n : Nat) (s : State) : Drives [] s (drainUpTo n s).1 (drainUpTo n s).2 := by
  induction n generalizing s with
  | zero => exact .done s
  | succ n ih =>
    by_cases hv : (hostRead .bcOut s).1.getLsbD 8 = true
    · rw [drainUpTo, if_pos hv]
      exact .read hv (ih _)
    · rw [drainUpTo, if_neg hv]
      exact .other (readTxn .bcOut) rfl (bc_of_not_valid hv) (.done _)

/-- A run that starts and ends with nothing queued and touches no other partition. -/
structure DrainedRun (is : List Instr) (s : State) (out : List Byte) (s' : State) : Prop where
  drives : Drives is s out s'
  inv : BcInv s'.bc
  empty : s'.bc.fifo = []
  pm : s'.pm = s.pm
  ctl : s'.ctl = s.ctl

theorem drainedRun_append {is js : List Instr} {s s1 s2 : State} {out q : List Byte} (h : DrainedRun is s out s1)
    (h' : DrainedRun js s1 q s2) : DrainedRun (is ++ js) s (out ++ q) s2 :=
  { h' with
    drives := drives_append h.drives h'.drives
    pm := h'.pm.trans h.pm
    ctl := h'.ctl.trans h.ctl }

/-- An empty queue has room for every push and flush (R166). -/
theorem rejectedForSpace_of_empty {s : State} (hinv : BcInv s.bc) (hempty : s.bc.fifo = []) (i : Instr) :
    rejectedForSpace i s = false := by
  cases i with
  | bcPush v =>
    have hle : (s.bc.bits.toNat + s.bc.fromBits.toNat) / s.bc.toBits.toNat ≤ 8 :=
      pushCount_le hinv.bitsBelow hinv.fromLegal.2
    simp [rejectedForSpace, hempty, Nat.not_lt.2 hle]
  | bcFlush => simp [rejectedForSpace, hempty]
  | _ => rfl

/-- A push or flush that is not rejected leaves the control flags alone (R162, R163). -/
theorem ctl_of_exec {i : Instr} {s t : State} (hi : IsPushOrFlush i) (hinv : BcInv s.bc)
    (hfit : rejectedForSpace i s = false) (hx : exec i s = .next t) : t.ctl = s.ctl := by
  rcases hi with rfl | ⟨v, rfl⟩
  · cases cmdEffect_of_exec hx with
    | flushOverflows hrun hpad hbits hfull => exact absurd (rejectedForSpace_flush hrun hpad hbits hfull) (by simp [hfit])
    | _ => rfl
  · cases cmdEffect_of_exec hx with
    | pushOverflows _ hrun hv hfull => exact absurd (rejectedForSpace_push hinv hrun hv hfull) (by simp [hfit])
    | _ => rfl

theorem isBcCommand_of_isPushOrFlush {i : Instr} (hi : IsPushOrFlush i) : isBcCommand i = true := by
  rcases hi with rfl | ⟨v, rfl⟩ <;> rfl

/-- One command from an empty queue, and a drain. -/
theorem drainedRun_command {i : Instr} {s : State} (hi : IsPushOrFlush i) (hinv : BcInv s.bc) (hempty : s.bc.fifo = []) :
    ∃ t, hostCmd i s = .next t ∧ DrainedRun [i] s (drain t).1 (drain t).2 := by
  obtain ⟨t, hx⟩ := exec_completes i s
  have hfit := rejectedForSpace_of_empty hinv hempty i
  have hbc := isBcCommand_of_isPushOrFlush hi
  have hread := drives_drainUpTo (t.bc.fifo.length + 1) t
  obtain ⟨hout, hfifo, hpm, hctl, -⟩ := drain_spec t
  exact ⟨t, (perform_cmdTxn i s).trans hx,
    { drives := .command hfit hx hread
      inv := bcInv_of_popped (popped_of_drives hread) (bcInv_of_exec hbc hinv hx)
      empty := by rw [hfifo]
      pm := hpm.trans (bcCommand_frame hbc hx).1
      ctl := hctl.trans (ctl_of_exec hi hinv hfit hx) }⟩

theorem pushDrained_spec (vs : List Byte) {s : State} (hinv : BcInv s.bc) (hempty : s.bc.fifo = []) :
    ∃ out s', pushDrained vs s = .next (out, s') ∧ DrainedRun (vs.map .bcPush) s out s' := by
  induction vs generalizing s with
  | nil => exact ⟨[], s, rfl, .done s, hinv, hempty, rfl, rfl⟩
  | cons v vs ih =>
    obtain ⟨t, ht, hrun⟩ := drainedRun_command (.inr ⟨v, rfl⟩) hinv hempty
    obtain ⟨out, s', hs', hruns⟩ := ih hrun.inv hrun.empty
    exact ⟨_, s', by simp only [pushDrained, ht, hs', andThen], drainedRun_append hrun hruns⟩

/-- The converting host is one of the hosts of R168. -/
theorem convertDrained_spec {f t : BitVec 4} (hf : widthLegal f = true) (ht : widthLegal t = true) (p : Bool)
    (vs : List Byte) (s : State) :
    ∃ out s', convertDrained (.bcCfg f t p) vs s = .next (out, s') ∧
      DrainedRun (vs.map .bcPush ++ [.bcFlush]) (setBc (configured f t p) s) out s' := by
  have hcfg : hostCmd (.bcCfg f t p) s = _ := (perform_cmdTxn _ s).trans (exec_bcCfg_of_legal hf ht p s)
  obtain ⟨q, s1, hpush, hrun⟩ := pushDrained_spec vs (s := setBc (configured f t p) s) (bcInv_configured hf ht p) rfl
  obtain ⟨s2, hflush, hend⟩ := drainedRun_command (.inl rfl) hrun.inv hrun.empty
  exact ⟨_, _, by simp only [convertDrained, hcfg, hpush, hflush, andThen], drainedRun_append hrun hend⟩

/-! ### The result read back -/

theorem statusWord_bcErr (s : State) : (statusWord s).extractLsb' 8 3 = s.bc.bcErr := by
  have h := statusWord_toNat s
  have := Bool.toNat_le (pmOne s)
  have := Bool.toNat_le s.ctl.cmdErr
  have := Bool.toNat_le s.ctl.ovf
  have := Bool.toNat_le s.ctl.accErr
  rw [← BitVec.toNat_inj, BitVec.extractLsb'_toNat, Nat.shiftRight_eq_div_pow]
  omega

theorem errinfoWord_errIdx (s : State) : (errinfoWord s).extractLsb' 0 16 = s.bc.errIdx := by
  rw [← BitVec.toNat_inj, BitVec.extractLsb'_toNat, Nat.shiftRight_zero, errinfoWord_toNat]
  omega

theorem errinfoWord_errVal (s : State) : (errinfoWord s).extractLsb' 16 8 = s.bc.errVal := by
  rw [← BitVec.toNat_inj, BitVec.extractLsb'_toNat, Nat.shiftRight_eq_div_pow, errinfoWord_toNat]
  omega

theorem map_ofNat_nats (l : List Byte) : (nats l).map (BitVec.ofNat 8) = l := by
  rw [nats, List.map_map]
  exact (List.map_congr_left fun v _ => by simp).trans (List.map_id' l)

/-- The host takes the result that a drained BC unit shows (R228, R229). -/
theorem conversionResult_of_shows {r : Except Ref.ConvError (List Nat)} {out : List Byte} {s : State}
    (h : Shows r out s.bc) (hempty : s.bc.fifo = []) :
    conversionResult (statusWord s) (errinfoWord s) out = hostResult r := by
  rw [conversionResult, statusWord_bcErr, errinfoWord_errIdx, errinfoWord_errVal]
  match r, h with
  | .ok _, ⟨hrun, hout⟩ =>
    rw [hempty, List.append_nil] at hout
    rw [hrun, ← hout, hostResult, map_ofNat_nats]
    rfl
  | .error (.dataOutOfRange ..), ⟨herr, hidx, hval, _⟩ =>
    rw [herr, ← hidx, ← hval]
    rfl
  | .error .illegalPadding, herr | .error .nonZeroPadding, herr =>
    rw [show s.bc.bcErr = _ from herr]
    rfl

/-- Settles O38: the drained run shows `convert_bits`, and the host reads it back. -/
theorem theDrainingHostGetsConvertBits : Obligations.TheDrainingHostGetsConvertBits := by
  intro f t p vs s hf1 hf8 ht1 ht8 hlen
  have hf := (widthLegal_iff f).2 ⟨hf1, hf8⟩
  have ht := (widthLegal_iff t).2 ⟨ht1, ht8⟩
  obtain ⟨out, s', hconv, hrun⟩ := convertDrained_spec hf ht p vs s
  have hshows := shows_convertBits hf ht hlen rfl hrun.drives
  rw [← conversionResult_of_shows hshows hrun.empty]
  refine ⟨(hostRead .bcErrinfo (hostRead .status s').2).2, ?_, hrun.pm, hrun.ctl⟩
  rw [hostConvert, hconv]
  rfl

end Sys2Proof.Proofs
end

section
/-! PROOFS. The control commands `NOP`, `CLRERR` and `RESET` (spec 42_control.md R200 to R202). -/

namespace Sys2Proof.Proofs

open Sys2Proof Sys2Proof.Machine Sys2Proof.Laws

/-- A command word with a defined opcode and a set reserved operand bit is illegal with cause 2 (R95). -/
theorem perform_write_reservedOperand {w : Word} {f : Format} (h : w.extractLsb' 16 16 = 0)
    (hf : formatOf (w.extractLsb' 12 4) = some f) (hr : w.extractLsb' 0 12 &&& reservedBits f ≠ 0) (s : State) :
    perform (.memWrite 0x00 w) s = .next (cmdIllegal .reservedOperandBits s) :=
  (perform_write_zero w s).trans (writeCmd_illegal (decode_reservedOperand h hf hr) s)

/-- What a register reads is a function of the block's three partitions (R45 to R55). -/
theorem regValue_congr {s t : State} (hpm : s.pm = t.pm) (hbc : s.bc = t.bc) (hctl : s.ctl = t.ctl) (r : Reg) :
    regValue r s = regValue r t := by
  obtain ⟨pm, bc, ctl, pending, reads⟩ := s
  obtain ⟨pm', bc', ctl', pending', reads'⟩ := t
  subst hpm hbc hctl
  cases r <;> rfl

/-- After a reset every register reads what it reads in the reset state (R291). -/
theorem hostRead_resetBlock (r : Reg) (s : State) : (hostRead r (resetBlock s)).1 = (hostRead r State.reset).1 := by
  rw [hostRead_fst, hostRead_fst]
  exact regValue_congr rfl rfl rfl r

/-- Settles O41: both words have opcode 0, and the second has an operand bit that format N reserves. -/
theorem nopChangesNothing : Obligations.NopChangesNothing := fun s =>
  ⟨rfl, perform_write_encoded (i := .nop) rfl s, perform_write_reservedOperand (f := .N) rfl rfl (by decide) s⟩

/-- Settles O42: the clearing replaces the control partition alone, and `0x0000E001` sets a bit that format N reserves. -/
theorem clrerrClearsTheStickyFlags : Obligations.ClrerrClearsTheStickyFlags := fun s =>
  ⟨clearSticky s, rfl, perform_write_encoded (i := .clrerr) rfl s, rfl, rfl, rfl, rfl, clearSticky_bc s, clearSticky_pm s,
    clearSticky_pending s, clearSticky_reads s, cmdIllegal .reservedOperandBits s,
    perform_write_reservedOperand (f := .N) rfl rfl (by decide) s, cmdIllegal_cmdErr s _⟩

/-- Settles O43: the command and the input are one operation, and the views after it are those of the reset state. -/
theorem resetCommandIsTheResetEvent : Obligations.ResetCommandIsTheResetEvent := fun s =>
  ⟨resetBlock s, rfl, perform_write_encoded (i := .reset) rfl s, rfl, resetBlock_pm s, resetBlock_bc s, resetBlock_ctl s,
    resetBlock_pending s, resetBlock_reads s, (hostRead_resetBlock .status s).trans statusReadsEveryFlag.2,
    (hostRead_resetBlock .bcCfg s).trans rfl⟩

end Sys2Proof.Proofs
end

section
/-! PROOFS. The Bech32 codec at the host (spec 46_host_procedures.md R220, R224, R225, R232): splitting a string, decoding
what was encoded, letter case, and what self-verification refuses. -/

namespace Sys2Proof.Proofs

open Sys2Proof Sys2Proof.Machine Sys2Proof.Laws

/-! ### Sequencing -/

@[simp] theorem andThen_next {α β : Type} (a : α) (k : α → Host.Outcome β Fault Refusal) :
    andThen (.next a) k = k a := rfl

theorem andThen_eq_next_iff {α β : Type} {o : Host.Outcome α Fault Refusal} {k : α → Host.Outcome β Fault Refusal}
    {b : β} : andThen o k = .next b ↔ ∃ a, o = .next a ∧ k a = .next b := by
  cases o <;> simp [andThen]

/-! ### Splitting a rendered string -/

@[simp] theorem unprintable_symbolChar : ∀ x : Symbol, unprintable (symbolChar x) = false := by decide

@[simp] theorem isUpper_symbolChar : ∀ x : Symbol, isUpper (symbolChar x) = false := by decide

@[simp] theorem symbolChar_ne_separator : ∀ x : Symbol, symbolChar x ≠ separator := by decide

@[simp] theorem charSymbol_symbolChar : ∀ x : Symbol, charSymbol (symbolChar x) = some x := by decide

/-- The charset maps the characters of a data part back to its symbols (R220, R225 step 5). -/
theorem dataSymbols_map_symbolChar (xs : List Symbol) (j : Nat) : dataSymbols j (xs.map symbolChar) = .ok xs := by
  induction xs generalizing j with
  | nil => rfl
  | cons x xs ih => simp [dataSymbols, ih]

theorem lastSeparator_of_not_mem {cs : List Byte} (h : separator ∉ cs) : lastSeparator cs = none := by
  induction cs with
  | nil => rfl
  | cons c cs ih =>
    simp only [List.mem_cons, not_or] at h
    simp [lastSeparator, ih h.2, Ne.symm h.1]

/-- An HRP may hold separators of its own: the last one counts (R225 step 4). -/
theorem lastSeparator_append {cs : List Byte} (h : separator ∉ cs) (hrp : List Byte) :
    lastSeparator (hrp ++ separator :: cs) = some hrp.length := by
  induction hrp with
  | nil => simp [lastSeparator, lastSeparator_of_not_mem h]
  | cons c hrp ih => simp [lastSeparator, ih]

theorem renderString_length (hrp : List Byte) (xs : List Symbol) :
    (renderString hrp xs).length = hrp.length + 1 + xs.length := by
  simp [renderString]
  omega

/-- No character of the data part is a separator (R220, R225 step 4). -/
theorem lastSeparator_renderString (hrp : List Byte) (xs : List Symbol) :
    lastSeparator (renderString hrp xs) = some hrp.length := by
  rw [renderString, List.append_assoc, List.singleton_append, lastSeparator_append (by simp)]

theorem take_renderString (hrp : List Byte) (xs : List Symbol) : (renderString hrp xs).take hrp.length = hrp := by
  simp [renderString]

theorem drop_renderString (hrp : List Byte) (xs : List Symbol) :
    (renderString hrp xs).drop (hrp.length + 1) = xs.map symbolChar := by
  simp [renderString]

theorem any_renderString (p : Byte → Bool) (hrp : List Byte) (xs : List Symbol) :
    (renderString hrp xs).any p = (hrp.any p || p separator || (xs.map symbolChar).any p) := by
  simp [renderString, Bool.or_assoc]

theorem not_any_renderString {p : Byte → Bool} {hrp : List Byte} (hhrp : ∀ c ∈ hrp, p c = false)
    (hsep : p separator = false) (hchar : ∀ x, p (symbolChar x) = false) (xs : List Symbol) :
    (renderString hrp xs).any p = false := by
  rw [any_renderString, hsep, List.any_eq_false.2 fun c hc => by simp [hhrp c hc], List.any_map]
  simp [hchar]

/-- A string rendered from a lower-case printable HRP splits into its parts (R225 steps 1 to 5). -/
theorem splitString_renderString {hrp : List Byte} {xs : List Symbol} (hne : hrp ≠ [])
    (hhrp : ∀ c ∈ hrp, unprintable c = false ∧ isUpper c = false) (hxs : 6 ≤ xs.length)
    (hlen : hrp.length + 1 + xs.length ≤ 90) : splitString (renderString hrp xs) = .ok (hrp, xs) := by
  have hprint := not_any_renderString (fun c hc => (hhrp c hc).1) (by decide) unprintable_symbolChar xs
  have hupper := not_any_renderString (fun c hc => (hhrp c hc).2) (by decide) isUpper_symbolChar xs
  have hlower : (renderString hrp xs).map lowerChar = renderString hrp xs :=
    map_lowerChar_of_lower fun c hc => by simpa using List.any_eq_false.1 hupper c hc
  have hbounds :
      1 ≤ hrp.length ∧ hrp.length + 7 ≤ (renderString hrp xs).length ∧ (renderString hrp xs).length ≤ 90 := by
    have := List.length_pos_of_ne_nil hne
    rw [renderString_length]
    omega
  simp only [splitString, hprint, hupper, hlower, lastSeparator_renderString, if_pos hbounds, drop_renderString,
    take_renderString, dataSymbols_map_symbolChar, Bool.false_and, Bool.false_eq_true, if_false]

/-! ### Decoding what was encoded -/

/-- A string whose parts verify decodes to its HRP and payload (R225 steps 6 and 7). -/
theorem bech32Decode_of_verifies {str hrp : List Byte} {data ck : List Symbol}
    (hsplit : splitString str = .ok (hrp, data ++ ck)) (hck : ck.length = 6)
    (hone : polymodChk (streamSymbols hrp (data ++ ck)) = 1) (s : State) :
    ∃ t, bech32Decode str s = .next (.ok (hrp, data), t) := by
  obtain ⟨t, ht, -⟩ := verifyChecksum_spec hrp (data ++ ck) s
  refine ⟨t, ?_⟩
  simp [bech32Decode, hsplit, ht, hone, Config.ckLen, hck]

/-- The string that encoding answers: the created checksum is that of the lower-case HRP (R221, R224 step 3). -/
def encodedString (hrp : List Byte) (data : List Symbol) : List Byte :=
  renderString hrp (data ++ checksumSymbols (createdChecksum (hrp.map lowerChar) data))

theorem checksumSymbols_length (v : Chk) : (checksumSymbols v).length = 6 := rfl

theorem encodedString_length (hrp : List Byte) (data : List Symbol) :
    (encodedString hrp data).length = hrp.length + 7 + data.length := by
  rw [encodedString, renderString_length, List.length_append, checksumSymbols_length]
  omega

section
variable {hrp : List Byte} {data : List Symbol} (hne : hrp ≠ [])
  (hhrp : ∀ c ∈ hrp, unprintable c = false ∧ isUpper c = false) (hlen : hrp.length + 7 + data.length ≤ 90)
include hne hhrp hlen

theorem bech32Decode_encodedString (s : State) :
    ∃ t, bech32Decode (encodedString hrp data) s = .next (.ok (hrp, data), t) := by
  rw [encodedString, map_lowerChar_of_lower fun c hc => (hhrp c hc).2]
  have hck := checksumSymbols_length (createdChecksum hrp data)
  refine bech32Decode_of_verifies (splitString_renderString hne hhrp ?_ ?_) hck (polymodChk_created hrp data) s <;>
    rw [List.length_append, hck] <;> omega

/-- Encoding with self-verification succeeds, since its string decodes (R224 step 4). -/
theorem bech32Encode_encodedString (s : State) :
    ∃ t, bech32Encode true hrp (ints data) s = .next (.ok (encodedString hrp data), t) := by
  obtain ⟨t, ht, -⟩ := createChecksum_spec (hrp.map lowerChar) data s
  obtain ⟨u, hu⟩ := bech32Decode_encodedString hne hhrp hlen t
  refine ⟨u, ?_⟩
  rw [bech32Encode_verified ht, ← encodedString, hu]
  rfl

end

/-- Settles O53: the rendered string splits into what was rendered, and the created checksum verifies. -/
theorem encodedStringsDecode : Obligations.EncodedStringsDecode := by
  intro hrp data s hne hhrp hlen
  obtain ⟨t, ht⟩ := bech32Encode_encodedString hne hhrp hlen s
  exact ⟨_, t, ht, encodedString_length hrp data, bech32Decode_encodedString hne hhrp hlen⟩

/-! ### Letter case -/

theorem splitString_of_mixedCase {str : List Byte} (hu : str.any isUpper = true) (hl : str.any isLower = true) :
    splitString str = .error .invalidCharacter := by
  simp [splitString, hu, hl]

/-- Lower-casing moves the upper-case letters up by 32 and keeps every other character (R221). -/
theorem lowerChar_cases (c : Byte) :
    (isUpper c = false ∧ lowerChar c = c) ∨ (65 ≤ c.toNat ∧ c.toNat ≤ 90 ∧ (lowerChar c).toNat = c.toNat + 32) := by
  cases hc : isUpper c with
  | false => exact .inl ⟨rfl, lowerChar_of_not_upper hc⟩
  | true =>
    obtain ⟨hlo, hhi⟩ : 65 ≤ c.toNat ∧ c.toNat ≤ 90 := by simpa [isUpper] using hc
    refine .inr ⟨hlo, hhi, ?_⟩
    rw [lowerChar, if_pos hc, BitVec.toNat_add]
    exact Nat.mod_eq_of_lt (show c.toNat + 32 < 256 by omega)

theorem unprintable_eq_false_iff {c : Byte} : unprintable c = false ↔ 33 ≤ c.toNat ∧ c.toNat ≤ 126 := by
  simp [unprintable]

theorem unprintable_lowerChar (c : Byte) : unprintable (lowerChar c) = unprintable c := by
  rcases lowerChar_cases c with ⟨-, hc⟩ | ⟨hlo, hhi, hc⟩
  · rw [hc]
  · rw [unprintable_eq_false_iff.2 (by omega), unprintable_eq_false_iff.2 (by omega)]

theorem isUpper_lowerChar (c : Byte) : isUpper (lowerChar c) = false := by
  rcases lowerChar_cases c with ⟨hupper, hc⟩ | ⟨hlo, hhi, hc⟩
  · rw [hc, hupper]
  · rw [isUpper, hc, decide_eq_false (by omega : ¬ c.toNat + 32 ≤ 90), Bool.and_false]

/-- Without a lower-case letter, only the lower-case form of a string matters (R225 steps 1 to 3). -/
theorem splitString_map_lowerChar {str : List Byte} (hl : str.any isLower = false) :
    splitString (str.map lowerChar) = splitString str := by
  have hprint : (str.map lowerChar).any unprintable = str.any unprintable := by
    simp [List.any_map, Function.comp_def, unprintable_lowerChar]
  have hupper : (str.map lowerChar).any isUpper = false := by simp [isUpper_lowerChar]
  have htwice : (str.map lowerChar).map lowerChar = str.map lowerChar :=
    map_lowerChar_of_lower (List.forall_mem_map.2 fun c _ => isUpper_lowerChar c)
  simp only [splitString, hprint, hupper, hl, htwice, Bool.false_and, Bool.and_false]

/-- Settles O52: mixed case is refused before any command, and a string without lower case splits as its lower-case
form. -/
theorem decodingIgnoresTheCaseOfAOneCaseString : Obligations.DecodingIgnoresTheCaseOfAOneCaseString := by
  refine ⟨fun str s hu hl => bech32Decode_error (splitString_of_mixedCase hu hl) s, fun str s hl => ?_⟩
  rw [bech32Decode, splitString_map_lowerChar hl, bech32Decode]

/-! ### What self-verification refuses -/

theorem splitString_of_unprintable {str : List Byte} (h : str.any unprintable = true) :
    splitString str = .error .invalidCharacter := by
  simp [splitString, h]

/-- The length is the third condition on the separator's place (R225 step 4). -/
theorem splitString_of_tooLong {str : List Byte} (h : 90 < str.length) : ∃ e, splitString str = .error e := by
  have hbounds (pos : Nat) :
      ¬ (1 ≤ pos ∧ pos + 7 ≤ (str.map lowerChar).length ∧ (str.map lowerChar).length ≤ 90) := by
    rw [List.length_map]
    omega
  simp only [splitString, if_neg (hbounds _)]
  split_ifs
  · exact ⟨_, rfl⟩
  · exact ⟨_, rfl⟩
  · cases lastSeparator (str.map lowerChar) <;> exact ⟨_, rfl⟩

/-- Encoding with self-verification fails as its string does (R224 step 4). -/
theorem bech32Encode_of_splitString_error {hrp : List Byte} {data ck : List Symbol} {s t : State} {e : HostError}
    (hck : createChecksum (hrp.map lowerChar) data s = .next (ck, t))
    (he : splitString (renderString hrp (data ++ ck)) = .error e) :
    bech32Encode true hrp (ints data) s = .next (.error e, t) := by
  rw [bech32Encode_verified hck, bech32Decode_error he]
  rfl

/-- Settles O56: the first value out of range stops encoding at once; otherwise the string is rendered with the created
checksum of the lower-case HRP, and self-verification takes over the errors of splitting it. -/
theorem encodingFeedsTheLowerCasePrefix : Obligations.EncodingFeedsTheLowerCasePrefix := by
  refine ⟨fun sv hrp before after v s hbefore hv => ?outside, fun hrp data s => ?symbols⟩
  case outside => simp [bech32Encode, firstOutside_append before after v 0 hbefore hv]
  case symbols =>
    obtain ⟨ck, t, hck, hnats, -⟩ := creationAnswersAChecksumThatVerifies (hrp.map lowerChar) data s
    refine ⟨ck, t, hck, hnats, bech32Encode_unverified hck, fun hbad => ?_, fun hlong => ?_⟩
    · refine bech32Encode_of_splitString_error hck ?_
      rcases hbad with hprint | ⟨hupper, hlower⟩
      · exact splitString_of_unprintable (by simp only [any_renderString, hprint, Bool.true_or])
      · exact splitString_of_mixedCase (by simp only [any_renderString, hupper, Bool.true_or])
          (by simp only [any_renderString, hlower, Bool.or_true])
    · rw [List.length_map, ← renderString_length] at hlong
      obtain ⟨e, he⟩ := splitString_of_tooLong hlong
      exact ⟨e, bech32Encode_of_splitString_error hck he⟩

/-! ### Encoding without self-verification -/

/-- Values in range are symbols (R224 step 1). -/
theorem exists_ints_of_firstOutside {i : Nat} {data : List Int} (h : firstOutside i data = none) :
    ∃ xs : List Symbol, data = ints xs := by
  induction data generalizing i with
  | nil => exact ⟨[], rfl⟩
  | cons v vs ih =>
    rw [firstOutside] at h
    split at h
    next hv =>
      obtain ⟨xs, rfl⟩ := ih h
      have hsymbol : ((BitVec.ofNat 5 v.toNat).toNat : Int) = v := by
        rw [BitVec.toNat_ofNat]
        omega
      exact ⟨BitVec.ofNat 5 v.toNat :: xs, congrArg (· :: ints xs) hsymbol.symm⟩
    next => cases h

/-- What encodes with self-verification is the encoded string of symbols (R224). -/
theorem eq_encodedString_of_bech32Encode {hrp str : List Byte} {data : List Int} {s t : State}
    (h : bech32Encode true hrp data s = .next (.ok str, t)) :
    ∃ xs : List Symbol, data = ints xs ∧ str = encodedString hrp xs := by
  cases hdata : firstOutside 0 data with
  | some => simp [bech32Encode, hdata] at h
  | none =>
    obtain ⟨xs, rfl⟩ := exists_ints_of_firstOutside hdata
    obtain ⟨u, hu, -⟩ := createChecksum_spec (hrp.map lowerChar) xs s
    rw [bech32Encode_verified hu] at h
    obtain ⟨⟨d, w⟩, -, h⟩ := andThen_eq_next_iff.1 h
    cases d <;> cases h
    exact ⟨xs, rfl, rfl⟩

/-- What encodes with self-verification encodes to the same string without it, which answers the encoded string of all
symbols (R232). -/
theorem bech32Encode_false_of_true {hrp str : List Byte} {data : List Int} {s t : State}
    (h : bech32Encode true hrp data s = .next (.ok str, t)) :
    ∃ t', bech32Encode false hrp data s = .next (.ok str, t') := by
  obtain ⟨xs, rfl, rfl⟩ := eq_encodedString_of_bech32Encode h
  obtain ⟨u, hu, -⟩ := createChecksum_spec (hrp.map lowerChar) xs s
  exact ⟨u, bech32Encode_unverified hu⟩

/-- Both settings run the same conversion and hand the same symbols to `encode` (R226, R232). -/
theorem segwitEncode_false_of_true {hrp program addr : List Byte} {version : Int} {s t : State}
    (h : segwitEncode true hrp version program s = .next (.ok addr, t)) :
    ∃ t', segwitEncode false hrp version program s = .next (.ok addr, t') := by
  unfold segwitEncode at h ⊢
  obtain ⟨r, hr, h⟩ := andThen_eq_next_iff.1 h
  simp only [hr, andThen_next] at h ⊢
  split at h
  next => cases h
  next htest =>
    obtain ⟨⟨e, u⟩, he, h⟩ := andThen_eq_next_iff.1 h
    cases e with
    | error => cases h
    | ok str =>
      obtain ⟨⟨d, w⟩, -, h⟩ := andThen_eq_next_iff.1 h
      cases d <;> cases h
      obtain ⟨u', hu'⟩ := bech32Encode_false_of_true he
      exact ⟨u', by rw [if_neg htest, hu']; rfl⟩

/-- Settles O54: a success with self-verification is a success of every step it shares with the other setting. -/
theorem selfVerificationOnlyRefuses : Obligations.SelfVerificationOnlyRefuses :=
  ⟨fun _ _ _ _ _ => bech32Encode_false_of_true, fun _ _ _ _ _ _ => segwitEncode_false_of_true⟩

end Sys2Proof.Proofs
end

section
/-! PROOFS. The segwit address codec at the host (spec 46_host_procedures.md R226, R227): an address decodes to the version
and program it was made of. -/

namespace Sys2Proof.Proofs

open Sys2Proof Sys2Proof.Machine Sys2Proof.Laws

/-! ### The two conversions -/

/-- Every list of numbers below `2 ^ w` is one of words. -/
theorem exists_nats_of_lt {w : Nat} {l : List Nat} (hl : ∀ x ∈ l, x < 2 ^ w) :
    ∃ xs : List (BitVec w), l = nats xs := by
  refine ⟨l.map (BitVec.ofNat w), ?_⟩
  rw [nats, List.map_map]
  exact ((List.map_congr_left fun x hx => Nat.mod_eq_of_lt (hl x hx)).trans (List.map_id l)).symm

/-- The symbols of a program, and the way back (R169). -/
theorem exists_programSymbols (program : List Byte) :
    ∃ xs : List Symbol, xs.length = (8 * program.length + 4) / 5 ∧
      Ref.convertBits (ints program) 8 5 true = .ok (nats xs) ∧
      Ref.convertBits (ints xs) 5 8 false = .ok (nats program) := by
  obtain ⟨g, hto, hlen, -, -, hback⟩ := bytesSurviveTheRoundTrip.1 program
  rw [map_cast_eq_integers] at hback
  obtain ⟨xs, rfl⟩ := exists_nats_of_lt (lt_of_convertBits_eq_ok hback)
  exact ⟨xs, (nats_length xs).symm.trans hlen, hto, ints_eq_integers xs ▸ hback⟩

theorem ints_of_nats_eq {v w : Nat} {l : List (BitVec v)} {m : List (BitVec w)} (h : nats l = nats m) :
    ints l = ints m := by
  rw [ints_eq_integers, h, ints_eq_integers]

theorem nats_map_setWidth (xs : List Symbol) : nats (xs.map (·.setWidth 8) : List Byte) = nats xs := by
  rw [nats, List.map_map]
  refine List.map_congr_left fun x _ => ?_
  have hx := x.isLt
  simp only [Function.comp_apply, BitVec.toNat_setWidth]
  omega

/-- The decoder's conversion gives the program back (R227 step 5). -/
theorem hostConvert_programSymbols {program : List Byte} {xs : List Symbol} (hlen : xs.length < 2 ^ 16)
    (h : Ref.convertBits (ints xs) 5 8 false = .ok (nats program)) (s : State) :
    ∃ t, hostConvert bcS2b (xs.map (·.setWidth 8)) s = .next (.ok program, t) := by
  obtain ⟨t, ht, -⟩ := theDrainingHostGetsConvertBits 5 8 false (xs.map (·.setWidth 8)) s (by decide) (by decide)
    (by decide) (by decide) (by rwa [List.length_map])
  rw [ints_of_nats_eq (nats_map_setWidth xs)] at ht
  refine ⟨t, ht.trans ?_⟩
  rw [show Ref.convertBits (ints xs) (5 : BitVec 4).toNat (8 : BitVec 4).toNat false = _ from h, hostResult,
    map_ofNat_nats]

/-- The encoder's conversion gives the program's symbols and leaves no error and the flags as they were (R226). -/
theorem convertDrained_programSymbols {program : List Byte} {xs : List Symbol} (hlen : program.length < 2 ^ 16)
    (h : Ref.convertBits (ints program) 8 5 true = .ok (nats xs)) (s : State) :
    ∃ out t, convertDrained bcB2s program s = .next (out, t) ∧ nats out = nats xs ∧
      t.bc.bcErr = 0 ∧ t.ctl = s.ctl := by
  obtain ⟨out, t, ht, hrun⟩ := convertDrained_spec (f := 8) (t := 5) (by decide) (by decide) true program s
  have hshows := shows_convertBits (by decide) (by decide) hlen rfl hrun.drives
  rw [show Ref.convertBits (ints program) (8 : BitVec 4).toNat (5 : BitVec 4).toNat true = _ from h] at hshows
  obtain ⟨herr, hout⟩ := hshows
  rw [hrun.empty, List.append_nil] at hout
  exact ⟨out, t, ht, hout, herr, hrun.ctl⟩

theorem statusWord_ovf (s : State) : (statusWord s).getLsbD 2 = s.ctl.ovf := by
  simp only [statusWord, BitVec.getLsbD_append]
  exact BitVec.getLsbD_ofBool ..

/-! ### Addresses -/

section
variable {hrp program : List Byte} {version : Symbol} {xs : List Symbol}

/-- An address whose string decodes to a version and a program's symbols decodes to them (R227). -/
theorem segwitDecode_of_bech32Decode {addr : List Byte} {s u : State}
    (hdec : bech32Decode addr s = .next (.ok (hrp, version :: xs), u)) (hversion : version.toNat ≤ 16)
    (hprogram : programLengthOk version program.length = true) (hlen : xs.length < 2 ^ 16)
    (h : Ref.convertBits (ints xs) 5 8 false = .ok (nats program)) :
    ∃ t, segwitDecode hrp addr s = .next (.ok (version, program), t) := by
  obtain ⟨t, ht⟩ := hostConvert_programSymbols hlen h u
  refine ⟨t, ?_⟩
  simp [segwitDecode, hdec, ht, hprogram, Nat.not_lt.2 hversion]

/-- Past the conversion, address encoding is `encode` and, with self-verification, decoding (R226). -/
theorem segwitEncode_of_encodes {out addr : List Byte} {s u v w : State}
    (hconv : convertDrained bcB2s program s = .next (out, u)) (herr : u.bc.bcErr = 0) (hovf : u.ctl.ovf = false)
    (henc : bech32Encode true hrp (version.toNat :: ints out) (hostRead .status u).2 = .next (.ok addr, v))
    (hdec : segwitDecode hrp addr v = .next (.ok (version, program), w)) :
    segwitEncode true hrp version.toNat program s = .next (.ok addr, w) := by
  have htest : ¬ ((hostRead .status u).1.extractLsb' 8 3 ≠ 0 ∨ (hostRead .status u).1.getLsbD 2 = true) := by
    rw [show (hostRead .status u).1 = statusWord u from hostRead_fst .status u, statusWord_bcErr, statusWord_ovf]
    simp [herr, hovf]
  rw [segwitEncode, hconv, andThen_next]
  simp only [if_neg htest]
  rw [show (out.map fun c => (c.toNat : Int)) = ints out from rfl, henc, andThen_next]
  simp only [if_true, hdec, andThen_next]

end

/-- Settles O55: the program's symbols come back as the program, and the string of version and symbols as them. -/
theorem segwitAddressesDecode : Obligations.SegwitAddressesDecode := by
  intro hrp program version s hne hhrp hversion hprogram hlen hovf
  obtain ⟨xs, hxs, hto, hback⟩ := exists_programSymbols program
  have hdata : hrp.length + 7 + (version :: xs).length ≤ 90 := by rw [List.length_cons]; omega
  have hdec (s' : State) :
      ∃ t', segwitDecode hrp (encodedString hrp (version :: xs)) s' = .next (.ok (version, program), t') := by
    obtain ⟨u, hu⟩ := bech32Decode_encodedString hne hhrp hdata s'
    exact segwitDecode_of_bech32Decode hu hversion hprogram (by omega) hback
  obtain ⟨out, u, hconv, hout, herr, hctl⟩ := convertDrained_programSymbols (by omega) hto s
  obtain ⟨v, henc⟩ := bech32Encode_encodedString hne hhrp hdata (hostRead .status u).2
  obtain ⟨w, hw⟩ := hdec v
  refine ⟨_, w, segwitEncode_of_encodes hconv herr (hctl ▸ hovf) ?_ hw, hdec⟩
  rw [ints_of_nats_eq hout]
  exact henc

end Sys2Proof.Proofs
end

section
/-! PROOFS. The error model (spec 60_exceptions.md R260, R269, R271, R272): every transaction completes and records at most
one error, what clears a recorded error, and repeated errors. -/

namespace Sys2Proof.Proofs

open Sys2Proof Sys2Proof.Machine Sys2Proof.Laws

variable {s s' : State} {t : Txn} {i : Instr}

/-! ### Completion -/

/-- Settles O10: a step waits or performs the front transaction. -/
theorem everyTransactionCompletes : Obligations.EveryTransactionCompletes := by
  refine ⟨perform_completes, fun s => ?_⟩
  cases h : s.pending with
  | nil => exact ⟨s, step_of_pending_nil h⟩
  | cons t ts => exact step_of_pending h ▸ perform_completes t _

/-! ### Clearing -/

/-- A transaction that writes a command is the command's write: each command has one word (R93, R99). -/
theorem eq_cmdTxn_of_txnCommand (h : txnCommand t = some i) : t = cmdTxn i := by
  unfold txnCommand at h
  split at h
  next off w =>
    split at h
    next hoff =>
      split at h
      next hw => cases h; rw [cmdTxn, encode_of_decode hw, hoff]; rfl
      next => cases h
    next => cases h
  all_goals cases h

/-- One of the control partition's three flags goes clear. -/
def ClearsAFlag (c c' : Control) : Prop :=
  (c.cmdErr = true ∧ c'.cmdErr = false) ∨ (c.ovf = true ∧ c'.ovf = false) ∨ (c.accErr = true ∧ c'.accErr = false)

theorem not_clearsAFlag_self (c : Control) : ¬ ClearsAFlag c c := by simp [ClearsAFlag]

theorem not_clearsAFlag_cmdIllegal (c : IllegalCause) (s : State) : ¬ ClearsAFlag s.ctl (cmdIllegal c s).ctl := by
  simp [ClearsAFlag]

theorem not_clearsAFlag_accError (s : State) : ¬ ClearsAFlag s.ctl (accError s).ctl := by simp [ClearsAFlag]

theorem not_clearsAFlag_overflow (s : State) : ¬ ClearsAFlag s.ctl (overflow s).ctl := by simp [ClearsAFlag]

/-- Only `CLRERR` and `RESET` clear a flag of the control partition (R201, R202). -/
theorem clearsAFlag_of_cmdEffect (he : CmdEffect s i s') (h : ClearsAFlag s.ctl s'.ctl) : i = .clrerr ∨ i = .reset := by
  cases he with
  | clrerr => exact .inl rfl
  | reset => exact .inr rfl
  | pushOverflows | flushOverflows => exact absurd h (not_clearsAFlag_overflow s)
  | _ => exact absurd h (not_clearsAFlag_self s.ctl)

theorem clearsAFlag_of_txnEffect (he : TxnEffect s t s') (h : ClearsAFlag s.ctl s'.ctl) :
    t = .resetInput ∨ t = cmdTxn .clrerr ∨ t = cmdTxn .reset := by
  cases he with
  | resetInput => exact .inl rfl
  | command i ht he =>
    rw [eq_cmdTxn_of_txnCommand ht]
    rcases clearsAFlag_of_cmdEffect he h with rfl | rfl
    · exact .inr (.inl rfl)
    · exact .inr (.inr rfl)
  | illegal w c => exact absurd h (not_clearsAFlag_cmdIllegal c s)
  | readError | writeError => exact absurd h (not_clearsAFlag_accError s)
  | read | pop => exact absurd h (not_clearsAFlag_self s.ctl)

/-- Only a legal `BC_CFG` and the resets leave phase ERROR (R161, R271). -/
theorem leavesError_of_txnEffect (he : TxnEffect s t s') (hs : s.bc.bcErr ≠ 0) (h : s'.bc.bcErr = 0) :
    t = .resetInput ∨ t = cmdTxn .reset ∨
      ∃ f g p, widthLegal f = true ∧ widthLegal g = true ∧ t = cmdTxn (.bcCfg f g p) := by
  cases he with
  | resetInput => exact .inl rfl
  | command i ht he =>
    rw [eq_cmdTxn_of_txnCommand ht]
    rcases leavesError_of_exec (exec_of_cmdEffect he) hs h with rfl | ⟨f, g, p, rfl, hf, hg⟩
    · exact .inr (.inl rfl)
    · exact .inr (.inr ⟨f, g, p, hf, hg, rfl⟩)
  | illegal | readError | writeError | read | pop => exact absurd h hs

/-- Settles O49: `CLRERR`, a legal `BC_CFG` and `RESET` clear what R271 says, and no other outcome of a transaction clears
a flag or the converter's error. -/
theorem noFlagClearsItself : Obligations.NoFlagClearsItself := by
  refine ⟨fun s => ?clrerr, fun f g p s hf hg => ?cfg, fun s => ?reset,
    fun t s s' h => clearsAFlag_of_txnEffect (txnEffect_of_perform h),
    fun t s s' h => leavesError_of_txnEffect (txnEffect_of_perform h)⟩
  case clrerr => exact ⟨clearSticky s, perform_cmdTxn .clrerr s, rfl⟩
  case cfg =>
    have hexec : exec (.bcCfg f g p) s = _ := exec_of_cmdEffect (.cfgLegal f g p hf hg)
    exact ⟨_, (perform_cmdTxn _ s).trans hexec, rfl, rfl, rfl, rfl, rfl, rfl⟩
  case reset => exact ⟨resetBlock s, perform_cmdTxn .reset s, rfl, rfl, rfl, rfl⟩

/-! ### One record per transaction -/

/-- Which of the four recording primitives have left a new record between two states: `cmd_illegal`, `acc_error`,
`overflow` and `bc_error`, the last with a code or context that was not there (R263 to R266). -/
def newRecords (s s' : State) : List Bool :=
  [decide (s'.ctl.cmdErr = true ∧ s.ctl.cmdErr = false), decide (s'.ctl.accErr = true ∧ s.ctl.accErr = false),
    decide (s'.ctl.ovf = true ∧ s.ctl.ovf = false),
    decide (s'.bc.bcErr ≠ 0 ∧ (s'.bc.bcErr, s'.bc.errIdx, s'.bc.errVal) ≠ (s.bc.bcErr, s.bc.errIdx, s.bc.errVal))]

/-- With no flag newly set, only the converter can have a new record. -/
theorem newRecords_of_ctl (h : s'.ctl = s.ctl ∨ s'.ctl = Control.reset) : (newRecords s s').count true ≤ 1 := by
  obtain ⟨b, hb⟩ : ∃ b, newRecords s s' = [false, false, false, b] := by
    rcases h with h | h <;> simp [newRecords, h, Control.reset]
  rw [hb]
  cases b <;> decide

theorem newRecords_cmdIllegal (c : IllegalCause) (s : State) : (newRecords s (cmdIllegal c s)).count true ≤ 1 := by
  cases h : s.ctl.cmdErr <;> simp [newRecords, h]

theorem newRecords_accError (s : State) : (newRecords s (accError s)).count true ≤ 1 := by
  cases h : s.ctl.accErr <;> simp [newRecords, h]

theorem newRecords_overflow (s : State) : (newRecords s (overflow s)).count true ≤ 1 := by
  cases h : s.ctl.ovf <;> simp [newRecords, h]

/-- Of the flags, a command sets only `OVF`, and then it leaves the BC unit as it was (R265, R270). -/
theorem newRecords_of_cmdEffect (he : CmdEffect s i s') : (newRecords s s').count true ≤ 1 := by
  cases he with
  | pushOverflows | flushOverflows => exact newRecords_overflow s
  | clrerr | reset => exact newRecords_of_ctl (.inr rfl)
  | _ => exact newRecords_of_ctl (.inl rfl)

/-- Settles O50: an outcome uses one recording primitive, or none. -/
theorem aTransactionRecordsAtMostOneError : Obligations.ATransactionRecordsAtMostOneError := by
  intro t s s' h
  change (newRecords s s').count true ≤ 1
  cases txnEffect_of_perform h with
  | resetInput => exact newRecords_of_ctl (.inr rfl)
  | command i ht he => exact newRecords_of_cmdEffect he
  | illegal w c => exact newRecords_cmdIllegal c s
  | readError | writeError => exact newRecords_accError s
  | read | pop => exact newRecords_of_ctl (.inl rfl)

/-! ### Repeated errors -/

/-- The first cause is kept (R263, R272). -/
theorem cmdIllegal_of_cmdErr (h : s.ctl.cmdErr = true) (c : IllegalCause) : cmdIllegal c s = s := by
  rw [cmdIllegal, if_pos h, ← h]
  rfl

theorem accError_of_accErr (h : s.ctl.accErr = true) : accError s = s := by
  rw [accError, ← h]
  rfl

theorem overflow_of_ovf (h : s.ctl.ovf = true) : overflow s = s := by
  rw [overflow, ← h]
  rfl

/-- Settles O51: each primitive writes a flag that is already set, and in phase ERROR only `BC_CFG` still records. -/
theorem errorsDoNotNestOrQueue : Obligations.ErrorsDoNotNestOrQueue := by
  refine ⟨fun w c s hw h => ?illegal, fun s => accError_of_accErr, fun s => overflow_of_ovf,
    fun s herr => ⟨fun v => exec_of_cmdEffect (.pushIgnored v herr), exec_of_cmdEffect (.flushIgnored herr)⟩,
    fun f g p s _ hw => ?badConfig⟩
  case illegal => rw [perform_write_zero, writeCmd_illegal hw, cmdIllegal_of_cmdErr h]
  case badConfig =>
    have hval : BitVec.ofNat 8 (cfgByte f g).toNat = cfgByte f g := by rw [BitVec.ofNat_toNat, BitVec.setWidth_eq]
    exact ⟨_, exec_of_cmdEffect (.cfgIllegal f g p hw), rfl, rfl, hval⟩

end Sys2Proof.Proofs
end

section
/-! PROOFS. Reset and the software-visible hazards (spec 70_reset_and_hazards.md R291, R295, R302, R304, R305): the values
right after a reset, what a transaction leaves on the host's side, runs, the test for `FIFO` space, and the order of the
two units' commands. -/

namespace Sys2Proof.Proofs

open Sys2Proof Sys2Proof.Machine Sys2Proof.Laws

variable {s s' s1 s2 u1 u2 : State} {t : Txn} {i j : Instr}

/-! ### Register values right after reset -/

/-- Settles O2: a register's view depends on the block's partitions alone, so it is the one of the reset state. -/
theorem registersReadTheirResetValues : Obligations.RegistersReadTheirResetValues := by
  intro s hpm hbc hctl
  have hread (r : Reg) : (hostRead r s).1 = regValue r State.reset :=
    (hostRead_fst r s).trans (regValue_congr hpm hbc hctl r)
  simp only [hread]
  decide

/-! ### The host's side -/

/-- A command issues and reads nothing (R305). -/
theorem exec_host_frame (h : exec i s = .next s') : s'.pending = s.pending ∧ s'.reads = s.reads := by
  cases cmdEffect_of_exec h with
  | _ => exact ⟨rfl, rfl⟩

/-- Settles O18: a read is logged with the value it returns, and no other outcome of a transaction touches the host's side. -/
theorem onlyReadsAreObserved : Obligations.OnlyReadsAreObserved := by
  intro t s s' h
  cases t with
  | memRead off =>
    cases h
    obtain ⟨-, hpending, hreads, -⟩ := onlyAnOutputReadHasASideEffect off s
    exact ⟨hpending, hreads⟩
  | memWrite off v =>
    cases txnEffect_of_perform h with
    | command i _ he => exact exec_host_frame (exec_of_cmdEffect he)
    | illegal | writeError => exact ⟨rfl, rfl⟩
  | resetInput => cases h; exact ⟨rfl, rfl⟩

/-! ### Runs -/

/-- A command does the same whatever is still pending: the conditions of its branches speak of the BC unit (R71). -/
theorem exec_pending (h : exec i s = .next s') (ts : List Txn) :
    exec i { s with pending := ts } = .next { s' with pending := ts } := by
  refine exec_of_cmdEffect ?_
  cases cmdEffect_of_exec h with
  | flushStrict hrun hpad hbits hacc => exact .flushStrict hrun hpad hbits hacc
  | _ => constructor <;> assumption

/-- A read does the same whatever is still pending (R71). -/
theorem busRead_pending (off : Offset) (s : State) (ts : List Txn) :
    (busRead off { s with pending := ts }).2 = { (busRead off s).2 with pending := ts } := by
  rcases hr : regAt off with _ | r
  · rw [busRead_of_regAt_none hr, busRead_of_regAt_none hr]
    rfl
  · obtain rfl := eq_regOffset_of_regAt hr
    rw [busRead_regOffset, busRead_regOffset, regValue_congr (t := s) rfl rfl rfl]
    split <;> rfl

/-- A transaction does the same whatever is still pending: it is whole, and nothing in the block sees what the host has
yet to issue (R68, R71). -/
theorem perform_pending (h : perform t s = .next s') (ts : List Txn) :
    perform t { s with pending := ts } = .next { s' with pending := ts } := by
  cases t with
  | memRead off => cases h; exact congrArg _ (busRead_pending off s ts)
  | memWrite off v =>
    by_cases ho : off = 0x00
    · subst ho
      rw [perform_write_zero] at h ⊢
      rcases writeCmd_cases v s with ⟨i, hi, -⟩ | ⟨c, hc, -⟩
      · rw [writeCmd_command hi] at h ⊢
        exact exec_pending h ts
      · rw [writeCmd_illegal hc] at h ⊢
        cases h
        rfl
    · cases (busWrite_of_ne_zero ho v s).symm.trans h
      exact busWrite_of_ne_zero ho v _
  | resetInput => cases h; rfl

/-- A step, then the rest of the run. -/
theorem run_succ_of_step (h : step s = .next s') (n : Nat) :
    Sys2Proof.core.run (n + 1) s = Sys2Proof.core.run n s' := by
  simp only [Host.Core.run, show Sys2Proof.core.step s = .next s' from h]

/-- Settles O17, by induction on the pending transactions: a step performs the first, whose outcome does not depend on the
others. -/
theorem aRunPerformsThePendingTransactionsInOrder : Obligations.ARunPerformsThePendingTransactionsInOrder := by
  intro ts
  induction ts with
  | nil =>
    intro s hs
    have hempty : ({ s with pending := [] } : State) = s := state_ext rfl rfl rfl hs.symm rfl
    rw [hempty]
    rfl
  | cons t ts ih =>
    intro s hs
    obtain ⟨s', h⟩ := perform_completes t s
    have hstep : step s = .next { s' with pending := ts } := (step_of_pending hs).trans (perform_pending h ts)
    rw [List.length_cons, run_succ_of_step hstep, performAll_cons (perform_pending h [])]
    exact ih { s' with pending := ts } rfl

/-! ### The test for `FIFO` space -/

/-- `STATUS` from bit 12 up: `FIFO_COUNT`, then `BC_BITS` (R46). -/
theorem statusWord_upper (s : State) :
    (statusWord s).toNat / 2 ^ 12 = (fifoCount s).toNat + 2 ^ 4 * s.bc.bits.toNat := by
  have := Bool.toNat_le (pmOne s)
  have := Bool.toNat_le s.ctl.cmdErr
  have := Bool.toNat_le s.ctl.ovf
  have := Bool.toNat_le s.ctl.accErr
  rw [statusWord_toNat]
  omega

theorem statusWord_fifoCount (s : State) : (statusWord s).extractLsb' 12 4 = fifoCount s := by
  rw [← BitVec.toNat_inj, BitVec.extractLsb'_toNat, Nat.shiftRight_eq_div_pow, statusWord_upper]
  omega

theorem statusWord_bits (s : State) : (statusWord s).extractLsb' 16 3 = s.bc.bits := by
  have := statusWord_upper s
  rw [← BitVec.toNat_inj, BitVec.extractLsb'_toNat, Nat.shiftRight_eq_div_pow]
  omega

theorem cfgWord_fromBits (s : State) : (cfgWord s).extractLsb' 0 4 = s.bc.fromBits := by
  rw [← BitVec.toNat_inj, BitVec.extractLsb'_toNat, Nat.shiftRight_zero, cfgWord_toNat]
  omega

theorem cfgWord_toBits (s : State) : (cfgWord s).extractLsb' 4 4 = s.bc.toBits := by
  rw [← BitVec.toNat_inj, BitVec.extractLsb'_toNat, Nat.shiftRight_eq_div_pow, cfgWord_toNat]
  omega

theorem cfgWord_pad (s : State) : (cfgWord s).getLsbD 8 = s.bc.pad := by
  simp only [cfgWord, BitVec.getLsbD_append]
  exact BitVec.getLsbD_ofBool ..

/-- Under the invariants an in-range push in phase RUN is rejected exactly when its groups do not fit (R162). -/
theorem push_rejected_iff (hinv : BlockInv s) (hrun : s.bc.bcErr = 0) {v : Byte} (hv : v.toNat < 2 ^ s.bc.fromBits.toNat) :
    (exec (.bcPush v) s = .next (overflow s) ∧ rejectedForSpace (.bcPush v) s = true) ↔ pushNoSpace s.bc = true := by
  have hrange : outOfRange v s.bc = false := by rwa [← Bool.not_eq_true, outOfRange_iff, Nat.not_le]
  refine ⟨fun ⟨_, hrej⟩ => ?_, fun hfull =>
    ⟨exec_of_cmdEffect (.pushOverflows v hrun hrange hfull),
      rejectedForSpace_push (bcInv_of_blockInv hinv) hrun hrange hfull⟩⟩
  rw [pushNoSpace_iff s.bc hinv.fifoShort]
  simpa [rejectedForSpace, hrun, hv] using hrej

/-- A padded flush of a residue in phase RUN is rejected exactly when the queue is full (R163). -/
theorem flush_rejected_iff (hrun : s.bc.bcErr = 0) (hpad : s.bc.pad = true) (hbits : 0 < s.bc.bits.toNat) :
    (exec .bcFlush s = .next (overflow s) ∧ rejectedForSpace .bcFlush s = true) ↔ s.bc.fifo.length = 8 := by
  refine ⟨fun ⟨_, hrej⟩ => ?_, fun hfull =>
    ⟨exec_of_cmdEffect (.flushOverflows hrun hpad hbits hfull), rejectedForSpace_flush hrun hpad hbits hfull⟩⟩
  simp only [rejectedForSpace, Bool.and_eq_true, beq_iff_eq] at hrej
  exact hrej.2

/-- Settles O35: the fields the host reads are the elements that the two rejections test. -/
theorem theSpaceTestPredictsRejection : Obligations.TheSpaceTestPredictsRejection := by
  intro s hinv hrun
  have hstatus : (hostRead .status s).1 = statusWord s := hostRead_fst .status s
  have hcfg : (hostRead .bcCfg s).1 = cfgWord s := hostRead_fst .bcCfg s
  have hshort := hinv.fifoShort
  simp only [hstatus, hcfg, statusWord_fifoCount, statusWord_bits, cfgWord_fromBits, cfgWord_toBits, cfgWord_pad,
    fifoCount_toNat s hshort]
  refine ⟨fun v hv => ?push, fun hpad hbits => ?flush⟩
  case push =>
    rw [push_rejected_iff hinv hrun hv, pushNoSpace_iff s.bc hshort]
    omega
  case flush =>
    rw [flush_rejected_iff hrun hpad hbits]
    omega

/-! ### Interleaving the two units -/

/-- A BC command writes no control element but `OVF` (R30). -/
theorem bcCommand_ctl (hj : isBcCommand j = true) (h : exec j s = .next s') :
    s'.ctl = { s.ctl with ovf := s'.ctl.ovf } := by
  obtain ⟨-, herr, hcause, hacc⟩ := bcCommand_frame hj h
  change s'.ctl = ⟨s.ctl.cmdErr, s.ctl.cmdCause, s'.ctl.ovf, s.ctl.accErr⟩
  rw [← herr, ← hcause, ← hacc]

/-- The two orders of a PM and a BC command end in one state: each command finds its own unit as in the other order, and
leaves the other command's as it is (R30, R302). -/
theorem eq_of_either_order (hi : isPmCommand i = true) (hj : isBcCommand j = true) (hi1 : exec i s = .next s1)
    (hj1 : exec j s1 = .next s2) (hj2 : exec j s = .next u1) (hi2 : exec i u1 = .next u2) : s2 = u2 := by
  obtain ⟨hs1bc, hs1ctl⟩ := pmCommand_frame hi hi1
  obtain ⟨hu2bc, hu2ctl⟩ := pmCommand_frame hi hi2
  have hs2pm := (bcCommand_frame hj hj1).1
  have hu1pm := (bcCommand_frame hj hj2).1
  obtain ⟨hbc, hovf⟩ := bcCommand_agrees hj hs1bc hj1 hj2
  obtain ⟨hs1q, hs1r⟩ := exec_host_frame hi1
  obtain ⟨hs2q, hs2r⟩ := exec_host_frame hj1
  obtain ⟨hu1q, hu1r⟩ := exec_host_frame hj2
  obtain ⟨hu2q, hu2r⟩ := exec_host_frame hi2
  refine state_ext ?pm (hbc.trans hu2bc.symm) ?ctl ?pending ?reads
  case pm => exact hs2pm.trans (pmCommand_agrees hi hu1pm.symm hi1 hi2)
  case ctl => rw [hu2ctl, bcCommand_ctl hj hj1, bcCommand_ctl hj hj2, hovf (by rw [hs1ctl]), hs1ctl]
  case pending => rw [hs2q, hs1q, hu2q, hu1q]
  case reads => rw [hs2r, hs1r, hu2r, hu1r]

/-- Settles O47: both orders complete, and in one state. -/
theorem theTwoUnitsInterleaveFreely : Obligations.TheTwoUnitsInterleaveFreely := by
  intro i j s hi hj
  obtain ⟨s1, hi1⟩ := exec_completes i s
  obtain ⟨s2, hj1⟩ := exec_completes j s1
  obtain ⟨u1, hj2⟩ := exec_completes j s
  obtain ⟨u2, hi2⟩ := exec_completes i u1
  obtain rfl := eq_of_either_order hi hj hi1 hj1 hj2 hi2
  exact ⟨s2, (hostCmds_cons hi1 [j]).trans (hostCmds_cons hj1 []), (hostCmds_cons hj2 [i]).trans (hostCmds_cons hi2 [])⟩

end Sys2Proof.Proofs
end
